-- ==== Sys2Proof/Word.lean ====
section
/-! DEFINITION. The two word types of the block: bytes (spec/00 R9) and the 32-bit words of the register window
(spec/10 R21). -/

namespace Sys2Proof

/-- A byte, a value in [0, 255] (spec/00 R9). -/
abbrev Byte := BitVec 8

/-- A word of the register window (spec/10 R21). -/
abbrev Word := BitVec 32

end Sys2Proof
end

