-- ==== Sys2Proof/Machine/Signed8.lean ====
section
/-! DEFINITION. The 8-bit signed/unsigned converter that the encoder, the decoder and the commands TO_U8 and TO_S8
share (spec/43). -/

namespace Sys2Proof

/-- `toUnsigned8(v) = v mod 256`, the non-negative remainder (spec/43 R200). -/
def toUnsigned8 (v : Int) : Byte := BitVec.ofNat 8 (v % 256).toNat

/-- `toSigned8(b)`: `b` when `b <= 127`, `b - 256` otherwise (spec/43 R201). -/
def toSigned8 (b : Byte) : Int := if b.toNat ≤ 127 then (b.toNat : Int) else (b.toNat : Int) - 256

end Sys2Proof
end

