-- ==== Sys2Proof/Syntax.lean ====
section
/-! DEFINITION. The instructions of the block, one constructor per row of spec/opcode_table.json. -/

namespace Sys2Proof

/-- The seven rows of the opcode table: the three stream instructions, selected by a control byte (spec/30 R80), and
the four commands, selected by the word written to CMD (spec/30 R92). `c` is the control byte's signed value, as
spec/42 R175 and R176 write it. -/
inductive Instr where
  /-- LIT(c): copy the `c + 1` bytes that follow (spec/42 R175). -/
  | lit (c : Int)
  /-- REP(c): repeat the byte that follows `-c + 1` times (spec/42 R176). -/
  | rep (c : Int)
  /-- NOP: no effect (spec/42 R174). -/
  | nop
  /-- ENCODE (spec/41 R130). -/
  | encode
  /-- DECODE (spec/42 R170). -/
  | decode
  /-- TO_U8 (spec/43 R204). -/
  | toU8
  /-- TO_S8 (spec/43 R205). -/
  | toS8
deriving DecidableEq, Repr

end Sys2Proof
end

