-- ==== Sys2Proof/WellFormed.lean ====
section
/-! DEFINITION. The operand ranges of the stream instructions. -/

namespace Sys2Proof

/-- LIT's operand is in [0, 127] (spec/42 R175) and REP's in [-127, -1] (spec/42 R176); nothing else has an operand in
its encoding. -/
def Instr.wf : Instr → Bool
  | .lit c => 0 ≤ c && c ≤ 127
  | .rep c => -127 ≤ c && c ≤ -1
  | .nop => true
  | .encode => true
  | .decode => true
  | .toU8 => true
  | .toS8 => true

end Sys2Proof
end

