-- ==== Sys2Proof/Decode.lean ====
section
/-! DEFINITION. The decoder and the encoder of instructions: control bytes (spec/30 R80 to R86) and command words
(spec/30 R91 to R93), and the opcode table as rows. -/

namespace Sys2Proof

/-- Where an instruction's bits stand: in a control byte of the stream, or in the word written to CMD. -/
inductive InstrWord where
  | control (b : Byte)
  | command (w : Word)
deriving DecidableEq, Repr

/-- Why the decoder gives no instruction. -/
inductive DecodeReject where
  /-- A command word that is none of the four codes (spec/30 R93). -/
  | illegalCommand (w : Word)
  /-- A stream with no byte left. -/
  | endOfStream
  /-- A width that no format of the block has (spec/30 R80, R91). -/
  | noFormat (nbits : Nat)
deriving DecidableEq, Repr

/-- The command codes (spec/30 R92). -/
def codeEncode : Word := 0x00000001#32
def codeDecode : Word := 0x00000002#32
def codeToU8 : Word := 0x00000003#32
def codeToS8 : Word := 0x00000004#32

/-- The instruction of a control byte (spec/30 R80, R81; the dispatch of spec/42 R172 reads the byte through
`toSigned8`). Every control byte is legal. -/
def decodeControl (b : Byte) : Instr :=
  if toSigned8 b = -128 then .nop
  else if 0 ≤ toSigned8 b then .lit (toSigned8 b)
  else .rep (toSigned8 b)

/-- The instruction of a command word, compared as a whole (spec/30 R91, R92, R93). -/
def decodeCommand (w : Word) : Except DecodeReject Instr :=
  if w = codeEncode then .ok .encode
  else if w = codeDecode then .ok .decode
  else if w = codeToU8 then .ok .toU8
  else if w = codeToS8 then .ok .toS8
  else .error (.illegalCommand w)

/-- The decoder of both layers. -/
def decodeWord : InstrWord → Except DecodeReject Instr
  | .control b => .ok (decodeControl b)
  | .command w => decodeCommand w

/-- The instruction whose control byte stands first in a stream, with the bytes after the control byte. -/
def decodeStream : List Byte → Except DecodeReject (Instr × List Byte)
  | [] => .error .endOfStream
  | b :: rest => .ok (decodeControl b, rest)

/-- The length in bytes of the chunk a stream instruction heads, control byte included: 1, 2, or LIT's `b + 2`
(spec/30 R82, R86). DESIGN CHOICE (log 22): R86 also says "3 to 130 bytes long", where `b + 2` is at most 129; the model
follows `b + 2`. A command stands in no stream. -/
def chunkLength : Instr → Nat
  | .lit c => (c + 2).toNat
  | .rep _ => 2
  | .nop => 1
  | .encode => 0
  | .decode => 0
  | .toU8 => 0
  | .toS8 => 0

/-- The encoder of instructions: the control byte (spec/30 R83, R84, R85) or the command word (spec/30 R92). -/
def encode : Instr → InstrWord
  | .lit c => .control (toUnsigned8 c)
  | .rep c => .control (toUnsigned8 c)
  | .nop => .control 0x80#8
  | .encode => .command codeEncode
  | .decode => .command codeDecode
  | .toU8 => .command codeToU8
  | .toS8 => .command codeToS8

/-- What the decoder reads from an instruction whose bits are `w`, numbered as spec/opcode_table.json numbers them: an
8-bit row is a control byte at the head of a stream, a 32-bit row a command word. -/
def decodeTableWord (nbits w : Nat) : Option Instr :=
  if 2 ^ nbits ≤ w then none
  else if nbits = 8 then
    match decodeStream [BitVec.ofNat 8 w] with
    | .ok (i, _) => some i
    | .error _ => none
  else if nbits = 32 then
    match decodeWord (.command (BitVec.ofNat 32 w)) with
    | .ok i => some i
    | .error _ => none
  else none

/-- The mnemonic of an instruction, as the opcode table spells it. -/
def mnemonic : Instr → String
  | .lit _ => "LIT"
  | .rep _ => "REP"
  | .nop => "NOP"
  | .encode => "ENCODE"
  | .decode => "DECODE"
  | .toU8 => "TO_U8"
  | .toS8 => "TO_S8"

/-- One row of spec/opcode_table.json: the width of its format, `match`, `mask` and `not_match`. -/
structure OpcodeRow where
  mnemonic : String
  nbits : Nat
  pattern : Nat
  mask : Nat
  notMatch : List Nat
deriving DecidableEq, Repr

/-- A word is one of a row's: its masked bits are the row's pattern and it is none of the row's exceptions. -/
def rowMatches (r : OpcodeRow) (w : Nat) : Bool :=
  w < 2 ^ r.nbits && (w &&& r.mask) == r.pattern && !r.notMatch.contains w

/-- The rows of spec/opcode_table.json, in its order. -/
def opcodeTable : List OpcodeRow :=
  [ { mnemonic := "LIT", nbits := 8, pattern := 0x00, mask := 0x80, notMatch := [] },
    { mnemonic := "REP", nbits := 8, pattern := 0x80, mask := 0x80, notMatch := [0x80] },
    { mnemonic := "NOP", nbits := 8, pattern := 0x80, mask := 0xFF, notMatch := [] },
    { mnemonic := "ENCODE", nbits := 32, pattern := 0x00000001, mask := 0xFFFFFFFF, notMatch := [] },
    { mnemonic := "DECODE", nbits := 32, pattern := 0x00000002, mask := 0xFFFFFFFF, notMatch := [] },
    { mnemonic := "TO_U8", nbits := 32, pattern := 0x00000003, mask := 0xFFFFFFFF, notMatch := [] },
    { mnemonic := "TO_S8", nbits := 32, pattern := 0x00000004, mask := 0xFFFFFFFF, notMatch := [] } ]

end Sys2Proof
end

