-- ==== Sys2Proof/Config.lean ====
section
/-! DEFINITION. What the platform fixes (spec/00 R8) and the free values (spec/93 S1 to S4). -/

namespace Sys2Proof

/-- The parameters the spec leaves open (spec/00 R8, spec/20 R51). They are data of the machine's state, which no step
changes, so a statement about every state is a statement about every platform. -/
structure Platform where
  /-- IN_CAP, the size of IBUF in bytes. -/
  inCap : Nat
  /-- OUT_CAP, the size of OBUF in bytes. -/
  outCap : Nat
  /-- REG_BASE, IBUF_BASE and OBUF_BASE: the bus addresses of the three spaces. -/
  regBase : Nat
  ibufBase : Nat
  obufBase : Nat
deriving DecidableEq, Repr

/-- Two address ranges, each a base and a size, have no address in common. -/
abbrev Platform.apart (base size base' size' : Nat) : Prop :=
  base + size ≤ base' ∨ base' + size' ≤ base

/-- The legal values of the parameters (spec/00 R8): each capacity is 1 to 2^32 - 1 and the three spaces do not
overlap. -/
abbrev Platform.wf (P : Platform) : Prop :=
  1 ≤ P.inCap ∧ P.inCap < 2 ^ 32 ∧ 1 ≤ P.outCap ∧ P.outCap < 2 ^ 32 ∧
  Platform.apart P.regBase 0x18 P.ibufBase P.inCap ∧ Platform.apart P.regBase 0x18 P.obufBase P.outCap ∧
  Platform.apart P.ibufBase P.inCap P.obufBase P.outCap

/-- The platform of `State.reset`. DESIGN CHOICE (log 1, log 2): the capacities are those of the test programs of
spec/95 section 3; the spec gives no bases. -/
def Platform.reference : Platform :=
  { inCap := 256, outCap := 256, regBase := 0x0000, ibufBase := 0x1000, obufBase := 0x2000 }

/-- Free bytes (spec/93 S2, S3, S4): the byte at an index of draw number `draw`. It has no body, so nothing can be
proved of its value (log 4). -/
opaque Config.freeByte : (draw : Nat) → (index : Nat) → Byte

/-- Free words (spec/93 S1): the word of draw number `draw` (log 4). -/
opaque Config.freeWord : (draw : Nat) → Word

end Sys2Proof
end

