-- ==== Sys2Proof/Machine/State.lean ====
section
/-! DEFINITION. The state of the machine: the registers (spec/10 sections 1 and 2), the buffers (section 3), the
internal command state (section 4), the platform's parameters and the model's own fields; the reasons a step can stop;
the state after reset (section 5). -/

namespace Sys2Proof.Machine

/-- The phase of a running command (spec/10 R31). -/
inductive Phase where
  | check
  | run
deriving DecidableEq, Repr

/-- The three address spaces (spec/20 R50). -/
inductive Space where
  | reg
  | ibuf
  | obuf
deriving DecidableEq, Repr

/-- A bus access of the host (spec/30 R95): a space, an offset in it and a width in bits; or the same by bus address,
which the platform's bases place in a space (spec/20 R51). A write of width 8 carries its byte in bits [7:0]. -/
inductive HostOp where
  | write (space : Space) (offset width : Nat) (value : Word)
  | read (space : Space) (offset width : Nat)
  | writeAt (address width : Nat) (value : Word)
  | readAt (address width : Nat)
deriving DecidableEq, Repr

/-- What happens next around the block (spec/40 R110, spec/70 R250). -/
inductive Event where
  /-- One access of the host. -/
  | host (op : HostOp)
  /-- The block takes a step, if it has one. -/
  | blockTurn
  /-- The host reads STATUS until BUSY is 0 (`POLL`, spec/30 R95). -/
  | poll
  /-- The platform asserts reset. -/
  | reset
deriving DecidableEq, Repr

/-- What a read of the host returns: a register's word or a buffer's byte. -/
inductive BusData where
  | word (v : Word)
  | byte (b : Byte)
deriving DecidableEq, Repr

/-- The contents of a buffer: the bytes something has written, as pairs of index and byte with the indices strictly
rising. A byte that is not listed has no value here; what it reads as is a free value (`State.ibufByte`,
`State.obufByte`, log 3). -/
abbrev Memory := List Host.Cell

/-- The canonical form of a memory: indices strictly rising. Every listed byte differs from what an unlisted index
holds, which is no value at all. -/
abbrev Memory.wf (m : Memory) : Prop := m.Pairwise fun x y => x.1 < y.1

/-- A stop of the machine that no run from reset reaches. -/
inductive Fault where
  /-- Raised by the block's step when the phase is RUN and `op` is none of the four commands: spec/40 R119 gives no
  unit to step. Safe: the machine stops where no rule gives a step. -/
  | noUnit
  /-- Raised by ENCODE, DECODE, LIT and REP when they would read IBUF at or beyond `n`, or with `n > IN_CAP`: spec/20
  R55 and R58 say the block never makes such an access. Safe: the machine stops where no rule gives a value. -/
  | ibufRange
deriving DecidableEq, Repr

/-- An access to which the spec gives no meaning: "the model refuses it" (spec/20 R53 to R55). -/
inductive Refusal where
  /-- An instruction whose arm of `exec` has no meaning yet; raised by `exec`. Safe: nothing can be proved of it. -/
  | notModelled (mnemonic : String)
  /-- A register access whose width is not 32 (spec/20 R53); raised by a host access. Safe. -/
  | registerWidth
  /-- A register access at an offset that is not a multiple of 4 (spec/20 R53); raised by a host access. Safe. -/
  | registerAlignment
  /-- A register access at offset 0x18 or above (spec/20 R55); raised by a host access. Safe. -/
  | registerOffset
  /-- A buffer access whose width is not 8 (spec/20 R54); raised by a host access. Safe. -/
  | bufferWidth
  /-- A buffer access at or beyond the buffer's capacity (spec/20 R55); raised by a host access. Safe. -/
  | bufferIndex
  /-- A bus address in none of the three spaces (spec/20 R50, R51); raised by a host access by address. Safe. -/
  | addressOutside
deriving DecidableEq, Repr

/-- The state of the machine. -/
structure State where
  /-- IN_CAP, OUT_CAP and the bases (spec/00 R8). No step changes them. -/
  platform : Platform
  /-- STATUS: BUSY [0], DONE [1], ERR [7:4] (spec/10 R23). -/
  status : Word
  /-- IN_LEN (spec/10 R24). -/
  inLen : Word
  /-- OUT_LEN (spec/10 R25). -/
  outLen : Word
  /-- CONV_IN (spec/10 R26). -/
  convIn : Word
  /-- CONV_OUT (spec/10 R27). -/
  convOut : Word
  /-- IBUF's written bytes (spec/10 R29). -/
  ibuf : Memory
  /-- The draw that IBUF's unwritten bytes come from (the model's own field, log 4). -/
  ibufDraw : Nat
  /-- OBUF's written bytes (spec/10 R30). -/
  obuf : Memory
  /-- The draw that OBUF's unwritten bytes come from (the model's own field, log 4). -/
  obufDraw : Nat
  /-- The CMD value latched at acceptance (spec/10 R31). -/
  op : Word
  /-- CHECK or RUN (spec/10 R31). -/
  phase : Phase
  /-- IN_LEN latched at acceptance (spec/10 R31). -/
  n : Word
  /-- The encoder's cursor (spec/10 R32). -/
  i : Nat
  /-- The literal buffer (spec/10 R33). -/
  lit : List Byte
  /-- The decoder's cursor (spec/10 R34). -/
  p : Nat
  /-- The number of bytes emitted so far (spec/10 R35). -/
  o : Nat
  /-- How many free values have been drawn (the model's own field, log 4). -/
  draws : Nat
  /-- What the host, the block and the platform do next, oldest first (the model's own field, log 8). -/
  schedule : List Event
  /-- What the host's reads returned, latest first (the model's own field, log 16). -/
  received : List BusData
deriving DecidableEq, Repr

/-- The state right after power-on reset on a platform (spec/10 R37, spec/70 R250 to R253). The registers are 0 and the
block idle. Nothing of the buffers is listed: their bytes are free values. The internal command state is unspecified
and unread; its values here are a DESIGN CHOICE (log 7). -/
def State.resetFor (P : Platform) : State :=
  { platform := P
    status := 0
    inLen := 0
    outLen := 0
    convIn := 0
    convOut := 0
    ibuf := []
    ibufDraw := 0
    obuf := []
    obufDraw := 1
    op := 0
    phase := .check
    n := 0
    i := 0
    lit := []
    p := 0
    o := 0
    draws := 2
    schedule := []
    received := [] }

/-- The state right after power-on reset on the reference platform (log 1). -/
def State.reset : State := State.resetFor Platform.reference

end Sys2Proof.Machine
end

