-- ==== Sys2Proof/Machine/Flags.lean ====
section
/-! DEFINITION. The STATUS word: its fields and every value a rule gives it (spec/10 R23, spec/60 R221). The block has
no other flag (spec/10 R36). -/

namespace Sys2Proof.Machine

/-- The error codes of spec/60 R221. -/
inductive ErrCode where
  | corruptData
  | illegalCmd
  | lenRange
  | outOverflow
deriving DecidableEq, Repr

/-- The number of an error code, the value of STATUS.ERR (spec/60 R221). -/
def errNumber : ErrCode → Word
  | .corruptData => 1
  | .illegalCmd => 2
  | .lenRange => 3
  | .outOverflow => 4

/-- STATUS.BUSY, bit 0 (spec/10 R23). -/
def statusBUSY (w : Word) : Bool := w.getLsbD 0

/-- STATUS.DONE, bit 1 (spec/10 R23). -/
def statusDONE (w : Word) : Bool := w.getLsbD 1

/-- STATUS.ERR, bits [7:4] (spec/10 R23). -/
def statusERR (w : Word) : BitVec 4 := w.extractLsb' 4 4

/-- The value STATUS takes at acceptance: BUSY 1, DONE 0, ERR 0 (spec/40 R112). -/
def statusAccepted : Word := 0x00000001#32

/-- The value STATUS takes at a successful completion: BUSY 0, DONE 1, ERR 0 (spec/40 R120). -/
def statusCompleted : Word := 0x00000002#32

/-- The value STATUS takes at an error: BUSY 0, DONE 1, ERR e (spec/60 R226). -/
def statusError (e : ErrCode) : Word := (errNumber e <<< 4) ||| 0x00000002#32

/-- The block is running a command: `STATUS.BUSY = 1`. -/
def State.busy (s : State) : Bool := statusBUSY s.status

end Sys2Proof.Machine
end

