-- ==== Sys2Proof/Machine/Ops.lean ====
section
/-! DEFINITION. The named operations over buffers and registers: reads and writes of the buffers, acceptance
(spec/40 R112), `emit` (R118), `complete` (R120), `raise Err` (spec/60 R226) and reset (spec/70 R250). -/

namespace Sys2Proof.Machine

/-- The byte listed at an index, if one is. -/
def Memory.read? : Memory → Nat → Option Byte
  | [], _ => none
  | (k, v) :: m, a => if a = k then some v else Memory.read? m a

/-- Store a byte at an index, keeping the canonical form. -/
def Memory.write : Memory → Nat → Byte → Memory
  | [], a, v => [(a, v)]
  | (k, w) :: m, a, v =>
    if a < k then (a, v) :: (k, w) :: m
    else if a = k then (a, v) :: m
    else (k, w) :: Memory.write m a v

/-- Store a sequence of bytes at consecutive indices from `a` on. -/
def Memory.writeFrom (m : Memory) (a : Nat) : List Byte → Memory
  | [] => m
  | v :: vs => Memory.writeFrom (Memory.write m a v) (a + 1) vs

/-- `IBUF[k]`: the stored byte, or IBUF's free value at that index if nothing has been stored there since reset
(spec/70 R252). -/
def State.ibufByte (s : State) (k : Nat) : Byte := (s.ibuf.read? k).getD (Config.freeByte s.ibufDraw k)

/-- `OBUF[k]`: the stored byte, or OBUF's free value at that index (spec/70 R252, spec/60 R226). -/
def State.obufByte (s : State) (k : Nat) : Byte := (s.obuf.read? k).getD (Config.freeByte s.obufDraw k)

/-- The sequence `IBUF[0..n)` that ENCODE and DECODE read (spec/41 R130, spec/42 R170). -/
def State.inputSeq (s : State) : List Byte := (List.range s.n.toNat).map s.ibufByte

/-- The sequence `OBUF[0..len)`. -/
def State.outputSeq (s : State) (len : Nat) : List Byte := (List.range len).map s.obufByte

/-- Every byte of OBUF becomes unspecified: each is drawn anew (spec/93 S3). -/
def State.redrawObuf (s : State) : State :=
  { s with obuf := [], obufDraw := s.draws, draws := s.draws + 1 }

/-- Acceptance of the command word `w` (spec/40 R112). -/
def State.accept (s : State) (w : Word) : State :=
  { s with op := w, n := s.inLen, i := 0, lit := [], p := 0, o := 0, phase := .check, status := statusAccepted }

/-- A command has an output sequence: ENCODE and DECODE (spec/40 R117, R120). -/
def isCodecCommand (w : Word) : Bool := w = codeEncode || w = codeDecode

/-- `complete()` (spec/40 R120). -/
def State.complete (s : State) : State :=
  { s with
    outLen := if isCodecCommand s.op then BitVec.ofNat 32 s.o else s.outLen
    status := statusCompleted }

/-- After this error every byte of OBUF is unspecified (spec/60 R226, spec/10 R30). -/
def errLosesObuf : ErrCode → Bool
  | .corruptData => true
  | .illegalCmd => false
  | .lenRange => false
  | .outOverflow => true

/-- `raise Err(e)`, the end of a command with an error (spec/60 R226). This is the machine's one "exception": nothing is
saved, nothing is vectored, and the next acceptance is the whole of the return (R230). -/
def State.raiseErr (s : State) (e : ErrCode) : State :=
  let t := if errLosesObuf e then s.redrawObuf else s
  { t with outLen := 0, status := statusError e }

/-- The progress of a block step: `.ok s` while the command runs on, `.error s` when it has ended in `s` and nothing
later of the step runs (spec/40 R118). -/
abbrev Progress := Except State State

/-- The state a block step leaves, whether or not the command ended in it. -/
def endStep : Progress → Host.Outcome State Fault Refusal
  | .ok s => .next s
  | .error s => .next s

/-- `emit(b)` (spec/40 R118). -/
def State.emit (s : State) (b : Byte) : Progress :=
  if s.platform.outCap ≤ s.o then .error (s.raiseErr .outOverflow)
  else .ok { s with obuf := s.obuf.write s.o b, o := s.o + 1 }

/-- `emit` of each byte of a sequence, in order. -/
def State.emitAll (s : State) : List Byte → Progress
  | [] => .ok s
  | b :: bs => (s.emit b).bind fun t => t.emitAll bs

/-- The reset input is asserted (spec/70 R250, R251, R252): the state right after reset on the same platform, with both
buffers drawn anew. What the host does next and what it has read are the host's own. -/
def State.assertReset (s : State) : State :=
  { State.resetFor s.platform with
    ibufDraw := s.draws
    obufDraw := s.draws + 1
    draws := s.draws + 2
    schedule := s.schedule
    received := s.received }

end Sys2Proof.Machine
end

