-- ==== Sys2Proof/Machine/Operands.lean ====
section
/-! DEFINITION. The operand forms: bytes of the input sequence, the counts of LIT and REP, the low byte of CONV_IN, and
the location a host access names (spec/20 R50 to R55). -/

namespace Sys2Proof.Machine

/-- The block's own read of `IBUF[k]`. It reads only indices below `n`, with `n <= IN_CAP` (spec/20 R55, R58); elsewhere
there is no value. -/
def State.input? (s : State) (k : Nat) : Option Byte :=
  if k < s.n.toNat ∧ s.n.toNat ≤ s.platform.inCap then some (s.ibufByte k) else none

/-- The block's reads of `IBUF[a .. a+k)`. -/
def State.inputRange? (s : State) (a : Nat) : Nat → Option (List Byte)
  | 0 => some []
  | k + 1 =>
    match s.input? a, s.inputRange? (a + 1) k with
    | some b, some bs => some (b :: bs)
    | _, _ => none

/-- The run length of LIT(c), `k = c + 1` (spec/42 R175, spec/30 R83). -/
def litCount (c : Int) : Nat := (c + 1).toNat

/-- The run length of REP(c), `k = -c + 1` (spec/42 R176, spec/30 R84). -/
def repCount (c : Int) : Nat := (-c + 1).toNat

/-- The control byte of a literal run of `k` bytes, `toUnsigned8(k - 1)` (spec/41 R133). -/
def litControl (k : Nat) : Byte := toUnsigned8 ((k : Int) - 1)

/-- The control byte of a repeat run of `L` bytes, `toUnsigned8(-(L - 1))` (spec/41 R138). -/
def repControl (L : Nat) : Byte := toUnsigned8 (-((L : Int) - 1))

/-- Bits [7:0] of a word: the operand of TO_U8 and TO_S8 (spec/10 R26), and the byte of a buffer write. -/
def lowByte (w : Word) : Byte := w.setWidth 8

/-- What a host access names. -/
inductive Location where
  | cmd
  | status
  | inLen
  | outLen
  | convIn
  | convOut
  | ibuf (k : Nat)
  | obuf (k : Nat)
deriving DecidableEq, Repr

/-- The register at an offset of the window (spec/10 R21). -/
def registerAt (offset : Nat) : Except Refusal Location :=
  if offset = 0x00 then .ok .cmd
  else if offset = 0x04 then .ok .status
  else if offset = 0x08 then .ok .inLen
  else if offset = 0x0C then .ok .outLen
  else if offset = 0x10 then .ok .convIn
  else if offset = 0x14 then .ok .convOut
  else .error .registerOffset

/-- The location of an access of `width` bits at `offset` of a space; any other access is refused (spec/20 R53, R54,
R55). -/
def locate (P : Platform) (space : Space) (offset width : Nat) : Except Refusal Location :=
  match space with
  | .reg =>
    if width ≠ 32 then .error .registerWidth
    else if offset % 4 ≠ 0 then .error .registerAlignment
    else registerAt offset
  | .ibuf =>
    if width ≠ 8 then .error .bufferWidth
    else if P.inCap ≤ offset then .error .bufferIndex
    else .ok (.ibuf offset)
  | .obuf =>
    if width ≠ 8 then .error .bufferWidth
    else if P.outCap ≤ offset then .error .bufferIndex
    else .ok (.obuf offset)

/-- The address is one of the `size` addresses from `base` on. -/
abbrev inWindow (base size address : Nat) : Prop := base ≤ address ∧ address < base + size

/-- The space and the offset of a bus address, through the platform's bases (spec/20 R51). -/
def placeOf (P : Platform) (address : Nat) : Option (Space × Nat) :=
  if inWindow P.regBase 0x18 address then some (.reg, address - P.regBase)
  else if inWindow P.ibufBase P.inCap address then some (.ibuf, address - P.ibufBase)
  else if inWindow P.obufBase P.outCap address then some (.obuf, address - P.obufBase)
  else none

/-- The location of an access by bus address. -/
def locateAddress (P : Platform) (address width : Nat) : Except Refusal Location :=
  match placeOf P address with
  | some (space, offset) => locate P space offset width
  | none => .error .addressOutside

end Sys2Proof.Machine
end

