-- ==== Sys2Proof/Machine/HostBus.lean ====
section
/-! DEFINITION. The host's bus accesses (spec/40 R111 to R114, R121; spec/20 R57, R60) and `POLL` (spec/30 R95). -/

namespace Sys2Proof.Machine

/-- A read of this location returns an unspecified value now (spec/40 R121). -/
def readIsFree (loc : Location) (s : State) : Bool :=
  match loc with
  | .outLen => s.busy
  | .convOut => s.busy
  | .obuf _ => s.busy
  | .cmd => false
  | .status => false
  | .inLen => false
  | .convIn => false
  | .ibuf _ => false

/-- What a host read of a location returns (spec/40 R111). CMD reads 0 (spec/10 R22). -/
def readValue (loc : Location) (s : State) : BusData :=
  match loc with
  | .cmd => .word 0
  | .status => .word s.status
  | .inLen => .word s.inLen
  | .convIn => .word s.convIn
  | .outLen => .word (if s.busy then Config.freeWord s.draws else s.outLen)
  | .convOut => .word (if s.busy then Config.freeWord s.draws else s.convOut)
  | .ibuf k => .byte (s.ibufByte k)
  | .obuf k => .byte (if s.busy then Config.freeByte s.draws k else s.obufByte k)

/-- A host read: the value goes to the host, and an unspecified value is a fresh draw (spec/40 R121). Nothing of the
block changes (spec/20 R57). -/
def hostRead (loc : Location) (s : State) : State :=
  { s with
    received := readValue loc s :: s.received
    draws := if readIsFree loc s then s.draws + 1 else s.draws }

/-- A host write (spec/40 R111): of CMD, acceptance; of IN_LEN, CONV_IN and IBUF, a store; each dropped while busy
(R113, R114). Writes of STATUS, OUT_LEN, CONV_OUT and OBUF are ignored at every moment. -/
def hostWrite (loc : Location) (v : Word) (s : State) : State :=
  match loc with
  | .cmd => if s.busy then s else s.accept v
  | .inLen => if s.busy then s else { s with inLen := v }
  | .convIn => if s.busy then s else { s with convIn := v }
  | .ibuf k => if s.busy then s else { s with ibuf := s.ibuf.write k (lowByte v) }
  | .status => s
  | .outLen => s
  | .convOut => s
  | .obuf _ => s

/-- One bus access of the host. An access that names no location is refused (spec/20 R53 to R55). -/
def hostAccess (op : HostOp) (s : State) : Host.Outcome State Fault Refusal :=
  match op with
  | .write space offset width v =>
    match locate s.platform space offset width with
    | .ok loc => .next (hostWrite loc v s)
    | .error r => .refused r
  | .read space offset width =>
    match locate s.platform space offset width with
    | .ok loc => .next (hostRead loc s)
    | .error r => .refused r
  | .writeAt address width v =>
    match locateAddress s.platform address width with
    | .ok loc => .next (hostWrite loc v s)
    | .error r => .refused r
  | .readAt address width =>
    match locateAddress s.platform address width with
    | .ok loc => .next (hostRead loc s)
    | .error r => .refused r

/-- One read of `POLL`: STATUS is read, and while it reads BUSY the host will read it again, after a turn of the block
(spec/30 R95, log 10). -/
def pollStatus (s : State) : State :=
  let t := hostRead .status s
  if s.busy then { t with schedule := .blockTurn :: .poll :: t.schedule } else t

/-- `FILL IBUF, [b_0, ...]` from index `k` on: byte writes in order (spec/30 R95). -/
def fillFrom (k : Nat) : List Byte → List Event
  | [] => []
  | b :: bs => .host (.write .ibuf k 8 (b.setWidth 32)) :: fillFrom (k + 1) bs

/-- `FILL IBUF, [b_0, ..., b_m]` (spec/30 R95). -/
def fill (bs : List Byte) : List Event := fillFrom 0 bs

end Sys2Proof.Machine
end

