-- ==== Sys2Proof/Machine/Command.lean ====
section
/-! DEFINITION. The course of a command: the CHECK step (spec/40 R117), which instruction a RUN step executes
(spec/40 R119, spec/42 R173), and what the machine does next around it (spec/40 R110). -/

namespace Sys2Proof.Machine

/-- The CHECK step (spec/40 R117). -/
def checkStep (s : State) : State :=
  match decodeCommand s.op with
  | .error _ => s.raiseErr .illegalCmd
  | .ok _ =>
    if isCodecCommand s.op ∧ s.platform.inCap < s.n.toNat then s.raiseErr .lenRange
    else { s with phase := .run }

/-- The instruction the next RUN step executes: the command in `op` (spec/40 R119), and for DECODE with a chunk left
the stream instruction whose control byte stands at `p` (spec/42 R173). -/
def State.nextInstr (s : State) : Except Fault Instr :=
  match decodeCommand s.op with
  | .error _ => .error .noUnit
  | .ok .decode =>
    if s.p = s.n.toNat then .ok .decode
    else
      match s.input? s.p with
      | some b => .ok (decodeControl b)
      | none => .error .ibufRange
  | .ok i => .ok i

/-- What the machine does next: execute an instruction in a state, or something that is settled without one. -/
inductive Action where
  | run (i : Instr) (s : State)
  | settled (r : Host.Outcome State Fault Refusal)
deriving Repr

/-- The block's turn (spec/40 R110): it has a step exactly when BUSY is 1; an idle block does nothing (log 9). -/
def blockAction (s : State) : Action :=
  if s.busy then
    match s.phase with
    | .check => .settled (.next (checkStep s))
    | .run =>
      match s.nextInstr with
      | .ok i => .run i s
      | .error f => .settled (.fault f)
  else .settled (.next s)

/-- The next event of the schedule; with none left, the block's turn (spec/40 R110, log 8). -/
def nextAction (s : State) : Action :=
  match s.schedule with
  | [] => blockAction s
  | .blockTurn :: rest => blockAction { s with schedule := rest }
  | .host op :: rest => .settled (hostAccess op { s with schedule := rest })
  | .poll :: rest => .settled (.next (pollStatus { s with schedule := rest }))
  | .reset :: rest => .settled (.next (State.assertReset { s with schedule := rest }))

/-- The length in bytes of the longest chunk: a control byte and 128 data bytes. DESIGN CHOICE (log 22): spec/30 R86 gives
LIT `b + 2` bytes, at most 129, and yet says "3 to 130 bytes long"; the model follows `b + 2`. -/
def longestChunk : Nat := 129

/-- The state in which the block is about to execute a stream instruction: IBUF holds the control byte and zeros up to
the longest instruction, and DECODE of them has been accepted and checked (log 12). -/
def placeControl (b : Byte) (s : State) : State :=
  let len := min longestChunk s.platform.inCap
  let t : State :=
    { s with
      ibuf := s.ibuf.writeFrom 0 ((b :: List.replicate (longestChunk - 1) 0).take len)
      inLen := BitVec.ofNat 32 len
      schedule := [] }
  { t.accept codeDecode with phase := .run }

/-- The state in which the block is about to execute a command: its word has been accepted and, where it is one of the
four, has passed CHECK. An IN_LEN with which ENCODE or DECODE could not pass CHECK is made 0 (log 12). -/
def placeCommand (w : Word) (s : State) : State :=
  let len : Word := if isCodecCommand w ∧ s.platform.inCap < s.inLen.toNat then 0 else s.inLen
  let t := ({ s with inLen := len, schedule := [] } : State).accept w
  match decodeCommand w with
  | .ok _ => { t with phase := .run }
  | .error _ => t

/-- Place an instruction of the opcode table, by the width of its format. -/
def placeInstruction (nbits w : Nat) (s : State) : State :=
  if nbits = 8 then placeControl (BitVec.ofNat 8 w) s
  else if nbits = 32 then placeCommand (BitVec.ofNat 32 w) s
  else s

end Sys2Proof.Machine
end

