-- ==== Sys2Proof/Machine/Convert.lean ====
section
/-! DEFINITION. The converter commands TO_U8 and TO_S8: their single RUN step `CONV_STEP` (spec/43 R204, R205). -/

namespace Sys2Proof.Machine

/-- TO_U8 (spec/43 R204): `CONV_OUT <- zext_32(CONV_IN[7:0])`, then `complete()`. -/
def execToU8 (s : State) : Host.Outcome State Fault Refusal :=
  .next ({ s with convOut := (lowByte s.convIn).setWidth 32 } : State).complete

/-- TO_S8 (spec/43 R205): `CONV_OUT <- sext_32(CONV_IN[7:0])`, then `complete()`. -/
def execToS8 (s : State) : Host.Outcome State Fault Refusal :=
  .next ({ s with convOut := (lowByte s.convIn).signExtend 32 } : State).complete

end Sys2Proof.Machine
end

