-- ==== Sys2Proof/Machine/Decoder.lean ====
section
/-! DEFINITION. The RLE decoder: the stream instructions NOP, LIT and REP (spec/42 R174 to R178) and one RUN step of
DECODE (spec/42 R172). -/

namespace Sys2Proof.Machine

/-- NOP (spec/42 R174). -/
def execNop (s : State) : Host.Outcome State Fault Refusal := .next { s with p := s.p + 1 }

/-- LIT(c) (spec/42 R175): the truncation check of R177 comes before any byte is emitted. -/
def execLit (c : Int) (s : State) : Host.Outcome State Fault Refusal :=
  if s.n.toNat < s.p + 1 + litCount c then .next (s.raiseErr .corruptData)
  else
    match s.inputRange? (s.p + 1) (litCount c) with
    | none => .fault .ibufRange
    | some bs => endStep ((s.emitAll bs).map fun t => { t with p := t.p + 1 + litCount c })

/-- REP(c) (spec/42 R176): the truncation check of R178 comes before any copy is emitted. -/
def execRep (c : Int) (s : State) : Host.Outcome State Fault Refusal :=
  if s.n.toNat < s.p + 2 then .next (s.raiseErr .corruptData)
  else
    match s.input? (s.p + 1) with
    | none => .fault .ibufRange
    | some v => endStep ((s.emitAll (List.replicate (repCount c) v)).map fun t => { t with p := t.p + 2 })

/-- DECODE, one RUN step: `DEC_STEP` (spec/42 R172). -/
def execDecode (s : State) : Host.Outcome State Fault Refusal :=
  if s.p = s.n.toNat then .next s.complete
  else
    match s.input? s.p with
    | none => .fault .ibufRange
    | some b =>
      if toSigned8 b = -128 then execNop s
      else if 0 ≤ toSigned8 b then execLit (toSigned8 b) s
      else execRep (toSigned8 b) s

end Sys2Proof.Machine
end

