-- ==== Sys2Proof/Machine/Encoder.lean ====
section
/-! DEFINITION. The RLE encoder: one RUN step of ENCODE (spec/41 R132 to R139). -/

namespace Sys2Proof.Machine

/-- The scan of `runLength` (spec/41 R137), from a length `L` already matched; `fuel` bounds how far it can still go. -/
def State.scanRun (s : State) (v : Byte) : (fuel L : Nat) → Nat
  | 0, L => L
  | fuel + 1, L =>
    if L < 128 ∧ s.i + L < s.n.toNat ∧ s.input? (s.i + L) = some v then s.scanRun v fuel (L + 1) else L

/-- `runLength(i)` for a run of the value `v` whose first two bytes are matched (spec/41 R137): at most 126 more. -/
def State.runLength (s : State) (v : Byte) : Nat := s.scanRun v 126 2

/-- `flush()` (spec/41 R133). -/
def State.flush (s : State) : Progress :=
  if s.lit = [] then .ok s
  else (s.emitAll (litControl s.lit.length :: s.lit)).map fun t => { t with lit := [] }

/-- The last-byte case of `ENC_STEP` (spec/41 R134). -/
def State.encodeLast (s : State) (v : Byte) : Progress :=
  ({ s with lit := s.lit ++ [v] } : State).flush.map fun t => { t with i := t.i + 1 }

/-- The different case of `ENC_STEP` (spec/41 R135). -/
def State.encodeDifferent (s : State) (v : Byte) : Progress :=
  let t : State := { s with lit := s.lit ++ [v] }
  (if t.lit.length = 127 then t.flush else .ok t).map fun u => { u with i := u.i + 1 }

/-- The equal case of `ENC_STEP` (spec/41 R136, R138, R139). -/
def State.encodeEqual (s : State) (v : Byte) : Progress :=
  s.flush.bind fun t =>
    (t.emitAll [repControl (t.runLength v), v]).map fun u => { u with i := u.i + t.runLength v }

/-- ENCODE, one RUN step: `ENC_STEP` (spec/41 R132). -/
def execEncode (s : State) : Host.Outcome State Fault Refusal :=
  if s.i = s.n.toNat then .next s.complete
  else
    match s.input? s.i with
    | none => .fault .ibufRange
    | some v =>
      if s.i + 1 = s.n.toNat then endStep (s.encodeLast v)
      else
        match s.input? (s.i + 1) with
        | none => .fault .ibufRange
        | some w => if w ≠ v then endStep (s.encodeDifferent v) else endStep (s.encodeEqual v)

end Sys2Proof.Machine
end

