-- ==== Sys2Proof/Machine/Dispatch.lean ====
section
/-! DEFINITION. One arm per instruction: its meaning (spec/opcode_table.json). -/

namespace Sys2Proof.Machine

/-- The execution of an instruction: one RUN step of the block. -/
def exec (i : Instr) (s : State) : Host.Outcome State Fault Refusal :=
  match i with
  | .lit c => Sys2Proof.Machine.execLit c s
  | .rep c => Sys2Proof.Machine.execRep c s
  | .nop => Sys2Proof.Machine.execNop s
  | .encode => Sys2Proof.Machine.execEncode s
  | .decode => Sys2Proof.Machine.execDecode s
  | .toU8 => Sys2Proof.Machine.execToU8 s
  | .toS8 => Sys2Proof.Machine.execToS8 s

end Sys2Proof.Machine
end

