-- ==== Sys2Proof/Machine/Step.lean ====
section
/-! DEFINITION. One step of the machine, and the state in which its next step runs a given instruction. -/

namespace Sys2Proof.Machine

/-- Carry out an action. -/
def perform : Action → Host.Outcome State Fault Refusal
  | .run i t => exec i t
  | .settled r => r

/-- One step: one host access, one reset, or one block step (spec/40 R110). -/
def step (s : State) : Host.Outcome State Fault Refusal := perform (nextAction s)

/-- `s` with an instruction of the opcode table where the next step takes its instruction from (log 12). -/
def State.withFetchWord (s : State) (nbits w : Nat) : State := placeInstruction nbits w s

end Sys2Proof.Machine
end

