-- ==== Sys2Proof/Machine/Codec.lean ====
section
/-! DEFINITION. The pure functions `encode` (spec/41 R149) and `decode` (spec/42 R183), written from their own rules and
not from the step machine, for statements to compare the machine with. Recursion is on a fuel that the length of the
sequence supplies. -/

namespace Sys2Proof.Codec

/-- `lits(s)`: one literal chunk, nothing for no bytes (spec/41 R149). -/
def lits (s : List Byte) : List Byte := if s = [] then [] else toUnsigned8 ((s.length : Int) - 1) :: s

/-- `runLen(x, i)`: how many bytes from index `i` on equal `x[i]`, at most 128 (spec/41 R149). -/
def runLen (x : List Byte) (i : Nat) : Nat :=
  match x[i]? with
  | none => 0
  | some v => min 128 ((x.drop i).takeWhile (· == v)).length

/-- `enc(x, i, lit)` (spec/41 R149), given at least as much fuel as bytes are left. -/
def encFuel : Nat → List Byte → Nat → List Byte → List Byte
  | 0, _, _, _ => []
  | fuel + 1, x, i, lit =>
    match x[i]?, x[i + 1]? with
    | none, _ => []
    | some v, none => lits (lit ++ [v])
    | some v, some w =>
      if w ≠ v then
        if (lit ++ [v]).length = 127 then lits (lit ++ [v]) ++ encFuel fuel x (i + 1) []
        else encFuel fuel x (i + 1) (lit ++ [v])
      else
        lits lit ++ [toUnsigned8 (-((runLen x i : Int) - 1)), v] ++ encFuel fuel x (i + runLen x i) []

/-- `enc(x, i, lit)` (spec/41 R149). -/
def enc (x : List Byte) (i : Nat) (lit : List Byte) : List Byte := encFuel (x.length - i) x i lit

/-- `encode(x)` (spec/41 R149). -/
def encode (x : List Byte) : List Byte := enc x 0 []

/-- The result of `decode`: `Ok(z)` or `CorruptData` (spec/42 R183). -/
inductive Decoded where
  | ok (z : List Byte)
  | corruptData
deriving DecidableEq, Repr

/-- `prepend(s, r)` (spec/42 R183). -/
def prepend (s : List Byte) : Decoded → Decoded
  | .ok z => .ok (s ++ z)
  | .corruptData => .corruptData

/-- `dec(y, p)` (spec/42 R183), given at least as much fuel as bytes are left. -/
def decFuel : Nat → List Byte → Nat → Decoded
  | 0, _, _ => .ok []
  | fuel + 1, y, p =>
    match y[p]? with
    | none => .ok []
    | some b =>
      let c := toSigned8 b
      if c = -128 then decFuel fuel y (p + 1)
      else if 0 ≤ c then
        let k := (c + 1).toNat
        if y.length < p + 1 + k then .corruptData
        else prepend ((y.drop (p + 1)).take k) (decFuel fuel y (p + 1 + k))
      else
        let k := (-c + 1).toNat
        match y[p + 1]? with
        | none => .corruptData
        | some v => prepend (List.replicate k v) (decFuel fuel y (p + 2))

/-- `dec(y, p)` (spec/42 R183). -/
def dec (y : List Byte) (p : Nat) : Decoded := decFuel (y.length - p) y p

/-- `decode(y)` (spec/42 R183). -/
def decode (y : List Byte) : Decoded := dec y 0

end Sys2Proof.Codec
end

