-- ==== Sys2Proof/Machine/Stream.lean ====
section
/-! DEFINITION. The stream format as a grammar (spec/30 R82 to R88): chunks, their bytes, the bytes they stand for, and
the parse of a byte sequence. It is also the stream assembler of spec/30 R94. -/

namespace Sys2Proof.Machine

/-- A chunk: one control byte with its data bytes (spec/00 R14), in the form of the stream assembly (spec/30 R94). -/
inductive Chunk where
  /-- `LIT d_0, ..., d_{k-1}`. -/
  | lit (data : List Byte)
  /-- `REP k, v`. -/
  | rep (k : Nat) (v : Byte)
  /-- `NOP`. -/
  | nop
deriving DecidableEq, Repr

/-- A literal run has 1 to 128 bytes, a repeat run 2 to 128 (spec/30 R83, R84). -/
def Chunk.wf : Chunk → Bool
  | .lit data => 1 ≤ data.length && data.length ≤ 128
  | .rep k _ => 2 ≤ k && k ≤ 128
  | .nop => true

/-- The stream instruction that heads a chunk. -/
def Chunk.instr : Chunk → Instr
  | .lit data => .lit ((data.length : Int) - 1)
  | .rep k _ => .rep (-((k : Int) - 1))
  | .nop => .nop

/-- The bytes of a chunk (spec/30 R82, R84, R85, R94). -/
def Chunk.bytes : Chunk → List Byte
  | .lit data => toUnsigned8 ((data.length : Int) - 1) :: data
  | .rep k v => [toUnsigned8 (-((k : Int) - 1)), v]
  | .nop => [0x80#8]

/-- The bytes a chunk decodes to (spec/42 R174, R175, R176). -/
def Chunk.output : Chunk → List Byte
  | .lit data => data
  | .rep k v => List.replicate k v
  | .nop => []

/-- The bytes of a stream of chunks (spec/30 R87). -/
def streamBytes (cs : List Chunk) : List Byte := cs.flatMap Chunk.bytes

/-- The bytes a stream of chunks decodes to. -/
def streamOutput (cs : List Chunk) : List Byte := cs.flatMap Chunk.output

/-- The complete chunk at the head of a sequence and what follows it; none if there is no byte or the chunk is truncated
(spec/30 R87). -/
def takeChunk : List Byte → Option (Chunk × List Byte)
  | [] => none
  | b :: rest =>
    match decodeControl b with
    | .lit c =>
      if rest.length < (c + 1).toNat then none
      else some (.lit (rest.take (c + 1).toNat), rest.drop (c + 1).toNat)
    | .rep c =>
      match rest with
      | [] => none
      | v :: rest => some (.rep (-c + 1).toNat v, rest)
    | .nop => some (.nop, rest)
    | .encode => none
    | .decode => none
    | .toU8 => none
    | .toS8 => none

/-- The parse with at least as much fuel as bytes. -/
def parseFuel : Nat → List Byte → List Chunk × List Byte
  | 0, y => ([], y)
  | fuel + 1, y =>
    match takeChunk y with
    | none => ([], y)
    | some (c, rest) => (c :: (parseFuel fuel rest).1, (parseFuel fuel rest).2)

/-- The parse of a byte sequence, left to right from index 0: its complete chunks, and the truncated chunk after them,
empty if the sequence is well-formed (spec/30 R88). -/
def parse (y : List Byte) : List Chunk × List Byte := parseFuel y.length y

end Sys2Proof.Machine
end

