-- ==== Sys2Proof/Safety.lean ====
section
/-! DEFINITION. What counts as a safe state and a safe run, and the terms the statements use. -/

namespace Sys2Proof.Machine

/-- The values STATUS ever holds (spec/10 R23, spec/93 S16): idle after reset, running, completed, and completed with
each of the four errors. -/
def legalStatus : List Word :=
  [0x00000000#32, 0x00000001#32, 0x00000002#32, 0x00000012#32, 0x00000022#32, 0x00000032#32, 0x00000042#32]

/-- What holds of the internal command state while a command runs (spec/10 R31 to R35, spec/40 R115). -/
structure Running (s : State) : Prop where
  /-- `n` is IN_LEN, which is frozen (spec/40 R112, R114, R115). -/
  latched : s.n = s.inLen
  /-- The CHECK phase starts from the state acceptance leaves (spec/40 R112). -/
  start : s.phase = .check → s.i = 0 ∧ s.lit = [] ∧ s.p = 0 ∧ s.o = 0
  /-- The RUN phase has passed CHECK (spec/40 R117). -/
  checked : s.phase = .run → decodeCommand s.op ≠ .error (.illegalCommand s.op) ∧
    (isCodecCommand s.op = true → s.n.toNat ≤ s.platform.inCap)
  /-- The cursors stay inside the input and the output inside OBUF (spec/10 R32, R34, R35). -/
  cursors : s.i ≤ s.n.toNat ∧ s.p ≤ s.n.toNat ∧ s.o ≤ s.platform.outCap
  /-- Between steps the literal buffer holds at most 126 bytes (spec/10 R33). -/
  literals : s.lit.length ≤ 126
  /-- The literal buffer holds the bytes just before the encoder's cursor, in input order (spec/10 R33). -/
  pending : s.lit.length ≤ s.i ∧ ∀ j b, s.lit[j]? = some b → s.ibufByte (s.i - s.lit.length + j) = b
  /-- The literal buffer is empty when the input is consumed (spec/41 R140). -/
  drained : s.i = s.n.toNat → s.lit = []

/-- The invariant of the machine. -/
structure Inv (s : State) : Prop where
  /-- The parameters are legal (spec/00 R8). -/
  platform : s.platform.wf
  /-- STATUS holds a legal value (spec/10 R23). -/
  status : s.status ∈ legalStatus
  /-- OUT_LEN is at most OUT_CAP (spec/10 R25). -/
  outLen : s.outLen.toNat ≤ s.platform.outCap
  /-- CONV_OUT is a byte, zero- or sign-extended (spec/10 R27, R28, R37). -/
  convOut : ∃ b : Byte, s.convOut = b.setWidth 32 ∨ s.convOut = b.signExtend 32
  /-- Both buffers are in canonical form and inside their capacities (spec/10 R29, R30). -/
  ibuf : s.ibuf.wf ∧ ∀ c ∈ s.ibuf, c.1 < s.platform.inCap
  obuf : s.obuf.wf ∧ ∀ c ∈ s.obuf, c.1 < s.platform.outCap
  /-- The next draw is none of the draws the buffers come from. -/
  draws : s.ibufDraw < s.draws ∧ s.obufDraw < s.draws
  /-- The internal command state is sound while a command runs. -/
  running : s.busy = true → Running s

/-- The block is executing the command `w`: BUSY is 1, CHECK has passed, `op` is `w` (spec/40 R119). -/
abbrev State.runs (s : State) (w : Word) : Prop := s.status = statusAccepted ∧ s.phase = .run ∧ s.op = w

/-- The input of the command lies inside IBUF (spec/60 R224). -/
abbrev State.inputFits (s : State) : Prop := s.n.toNat ≤ s.platform.inCap

/-- From `s` to `t`, OBUF gets the bytes `bs` from index `a` on and keeps every other byte. -/
def WritesAt (s t : State) (a : Nat) (bs : List Byte) : Prop :=
  (∀ j b, bs[j]? = some b → t.obufByte (a + j) = b) ∧
  ∀ k, k < a ∨ a + bs.length ≤ k → t.obufByte k = s.obufByte k

/-- The state a command ends in with the error code of `status` when OBUF becomes unspecified: OUT_LEN is 0 and OBUF is
drawn anew (spec/60 R226, spec/93 S3). -/
def State.lost (s : State) (status : Word) : State :=
  { s with outLen := 0, status := status, obuf := [], obufDraw := s.draws, draws := s.draws + 1 }

/-- `t` with the internal command state of `u`. A statement that ends in `t = r.withInternal t` leaves that state open in
`t`: once the block is idle it is unspecified and unread (spec/10 R31, R37, spec/93 S5). -/
def State.withInternal (t u : State) : State :=
  { t with op := u.op, phase := u.phase, n := u.n, i := u.i, lit := u.lit, p := u.p, o := u.o }

/-- The host's write of CMD is the next event, and nothing is scheduled after it. -/
abbrev State.commanded (s : State) (w : Word) : Prop := s.schedule = [.host (.write .reg 0x00 32 w)]

/-- From the idle state `s`, whose next step accepts a command, that command ends with the `m`-th step, in `t`: BUSY is 1
from the accepting step up to the last but one (spec/10 R23, spec/40 R122, R124). -/
def EndsAt (s : State) (m : Nat) (t : State) : Prop :=
  2 ≤ m ∧ Host.Core.run Sys2Proof.core m s = .next t ∧ t.busy = false ∧
  ∀ k, 1 ≤ k → k < m → ∃ u : State, Host.Core.run Sys2Proof.core k s = .next u ∧ u.busy = true

/-- The sequence `IBUF[0..IN_LEN)` that a command accepted now would read. -/
def State.rawSeq (s : State) : List Byte := (List.range s.inLen.toNat).map s.ibufByte

/-- The bytes emitted so far, followed by what the encoder still has to emit, are `encode` of the input
(spec/41 R149). -/
def EncoderOnCourse (s : State) : Prop :=
  s.outputSeq s.o ++ Codec.enc s.inputSeq s.i s.lit = Codec.encode s.inputSeq

/-- The bytes emitted so far, before what the decoder still has to emit, are `decode` of the input (spec/42 R183). -/
def DecoderOnCourse (s : State) : Prop :=
  Codec.prepend (s.outputSeq s.o) (Codec.dec s.inputSeq s.p) = Codec.decode s.inputSeq

/-- A chunk of the encoder's output subset (spec/30 R89, spec/41 R141, R142, R146): a literal of 1 to 127 bytes with no
two adjacent bytes equal, or a repeat of 2 to 128. -/
def encoderChunk : Chunk → Prop
  | .lit data => 1 ≤ data.length ∧ data.length ≤ 127 ∧ data.IsChain (· ≠ ·)
  | .rep k _ => 2 ≤ k ∧ k ≤ 128
  | .nop => False

end Sys2Proof.Machine
end

