-- ==== Sys2Proof/Certificates/Slice0/Obligations.lean ====
section
/-! DEFINITION. The statements for the provers. Each docstring names the rule of spec/ its statement formalises. -/

open Sys2Proof Sys2Proof.Machine

/-! ### Encodings -/

/-- spec/30 R80 and R81: the class of a control byte by bit 7 and bits 6..0, and its signed value. -/
def Obligations.ControlByteClasses : Prop :=
  ∀ b : Byte,
    (b = 0x80#8 → decodeControl b = .nop) ∧
    (b.getLsbD 7 = false → decodeControl b = .lit b.toNat) ∧
    (b.getLsbD 7 = true → b ≠ 0x80#8 → decodeControl b = .rep ((b.setWidth 7).toNat - 128)) ∧
    (decodeControl b).wf

/-- spec/30 R92 and R93: the four command words, and that every other word is no command. -/
def Obligations.CommandWordsAreExactlyFour : Prop :=
  decodeCommand 0x00000001#32 = .ok .encode ∧ decodeCommand 0x00000002#32 = .ok .decode ∧
  decodeCommand 0x00000003#32 = .ok .toU8 ∧ decodeCommand 0x00000004#32 = .ok .toS8 ∧
  ∀ w : Word, w ≠ 1 → w ≠ 2 → w ≠ 3 → w ≠ 4 → decodeCommand w = .error (.illegalCommand w)

/-- Words written out from the encodings of spec/opcode_table.json and spec/95 W12. -/
def Obligations.SampleWordsDecode : Prop :=
  decodeTableWord 8 0b00000000 = some (.lit 0) ∧ decodeTableWord 8 0b01111111 = some (.lit 127) ∧
  decodeTableWord 8 0b10000001 = some (.rep (-127)) ∧ decodeTableWord 8 0b11111111 = some (.rep (-1)) ∧
  decodeTableWord 8 0b10000000 = some .nop ∧ decodeTableWord 32 1 = some .encode ∧
  decodeTableWord 32 2 = some .decode ∧ decodeTableWord 32 3 = some .toU8 ∧ decodeTableWord 32 4 = some .toS8 ∧
  decodeTableWord 32 0 = none ∧ decodeTableWord 32 0x101 = none

/-- Decoding and encoding agree, both ways: for every well-formed instruction, and for every word the decoder accepts. -/
def Obligations.DecodeAndEncodeAgree : Prop :=
  (∀ i : Instr, i.wf → decodeWord (encode i) = .ok i) ∧
  ∀ (w : InstrWord) (i : Instr), decodeWord w = .ok i → i.wf ∧ encode i = w

/-- The decoder reads the opcode table: a word is of a row exactly when the decoder gives an instruction of that row's
mnemonic, and no word is of two rows. -/
def Obligations.DecoderReadsTheOpcodeTable : Prop :=
  (∀ r ∈ opcodeTable, ∀ w : Nat,
    rowMatches r w = true ↔ ∃ i, decodeTableWord r.nbits w = some i ∧ mnemonic i = r.mnemonic) ∧
  ∀ r ∈ opcodeTable, ∀ r' ∈ opcodeTable, ∀ w : Nat,
    r.nbits = r'.nbits → rowMatches r w = true → rowMatches r' w = true → r = r'

/-- spec/43 R202: the conversions are exact. -/
def Obligations.ConversionsAreExact : Prop :=
  (∀ c : Int, -128 ≤ c → c ≤ 127 → toSigned8 (toUnsigned8 c) = c) ∧
  (∀ b : Byte, toUnsigned8 (toSigned8 b) = b) ∧
  (∀ v m : Int, toUnsigned8 (v + 256 * m) = toUnsigned8 v) ∧
  (∀ L : Nat, 2 ≤ L → L ≤ 128 → (toUnsigned8 (-((L : Int) - 1))).toNat = 257 - L ∧
    toSigned8 (BitVec.ofNat 8 (257 - L)) = -((L : Int) - 1)) ∧
  (∀ k : Nat, 1 ≤ k → k ≤ 128 → (toUnsigned8 ((k : Int) - 1)).toNat = k - 1 ∧
    toSigned8 (BitVec.ofNat 8 (k - 1)) = (k : Int) - 1)

/-- spec/30 R88: a byte sequence has at most one parse into chunks, and the parse of any byte sequence is its longest
well-formed prefix followed by what is left, which is empty or one truncated chunk: a control byte that declares more
data than remains. -/
def Obligations.StreamHasOneParse : Prop :=
  (∀ cs cs' : List Chunk, (∀ c ∈ cs, c.wf) → (∀ c ∈ cs', c.wf) → streamBytes cs = streamBytes cs' → cs = cs') ∧
  ∀ y : List Byte,
    (∀ c ∈ (parse y).1, c.wf) ∧ y = streamBytes (parse y).1 ++ (parse y).2 ∧
    ((parse y).2 = [] ∨ ∃ b data, (parse y).2 = b :: data ∧ data.length + 1 < chunkLength (decodeControl b)) ∧
    ∀ (cs : List Chunk) (rest : List Byte), (∀ c ∈ cs, c.wf) → y = streamBytes cs ++ rest → cs <+: (parse y).1

/-! ### The pure functions -/

/-- spec/41 R149: `enc` satisfies its recursion, at every index and with every literal buffer. -/
def Obligations.EncoderFunctionRecursion : Prop :=
  ∀ (x : List Byte) (i : Nat) (lit : List Byte),
    (i = x.length → Codec.enc x i lit = []) ∧
    (∀ v, i + 1 = x.length → x[i]? = some v → Codec.enc x i lit = Codec.lits (lit ++ [v])) ∧
    (∀ v w, x[i]? = some v → x[i + 1]? = some w → w ≠ v → (lit ++ [v]).length = 127 →
      Codec.enc x i lit = Codec.lits (lit ++ [v]) ++ Codec.enc x (i + 1) []) ∧
    (∀ v w, x[i]? = some v → x[i + 1]? = some w → w ≠ v → (lit ++ [v]).length ≠ 127 →
      Codec.enc x i lit = Codec.enc x (i + 1) (lit ++ [v])) ∧
    (∀ v, x[i]? = some v → x[i + 1]? = some v → ∃ L : Nat,
      (2 ≤ L ∧ L ≤ min 128 (x.length - i) ∧ ∀ j < L, x[i + j]? = some v) ∧
      (∀ M, 2 ≤ M → M ≤ min 128 (x.length - i) → (∀ j < M, x[i + j]? = some v) → M ≤ L) ∧
      Codec.enc x i lit = Codec.lits lit ++ [toUnsigned8 (-((L : Int) - 1)), v] ++ Codec.enc x (i + L) [])

/-- spec/42 R183: `dec` satisfies its recursion, at every index. -/
def Obligations.DecoderFunctionRecursion : Prop :=
  ∀ (y : List Byte) (p : Nat),
    (p = y.length → Codec.dec y p = .ok []) ∧
    (∀ b, y[p]? = some b → toSigned8 b = -128 → Codec.dec y p = Codec.dec y (p + 1)) ∧
    (∀ b (k : Nat), y[p]? = some b → 0 ≤ toSigned8 b → (k : Int) = toSigned8 b + 1 →
      (y.length < p + 1 + k → Codec.dec y p = .corruptData) ∧
      (p + 1 + k ≤ y.length →
        Codec.dec y p = Codec.prepend ((y.drop (p + 1)).take k) (Codec.dec y (p + 1 + k)))) ∧
    (∀ b (k : Nat), y[p]? = some b → toSigned8 b < 0 → toSigned8 b ≠ -128 → (k : Int) = -toSigned8 b + 1 →
      (y.length < p + 2 → Codec.dec y p = .corruptData) ∧
      (∀ v, y[p + 1]? = some v →
        Codec.dec y p = Codec.prepend (List.replicate k v) (Codec.dec y (p + 2))))

/-- spec/41 R147: the round trip, for every raw sequence. -/
def Obligations.DecodeOfEncodeIsTheInput : Prop :=
  ∀ x : List Byte, Codec.decode (Codec.encode x) = .ok x

/-- spec/41 R143: the encoder's output is at most `n + ceil(n / 3)` bytes. -/
def Obligations.EncodedLengthIsBounded : Prop :=
  ∀ x : List Byte, (Codec.encode x).length ≤ x.length + (x.length + 2) / 3

/-- spec/41 R141, R142 and R146: what chunks the encoder emits. Every one is a literal of 1 to 127 bytes without two
adjacent equal bytes or a repeat of 2 to 128; a literal before a repeat does not end in the repeat's value; a literal
before a literal has 127 bytes. So it emits neither 0x80 nor 0x7F as a control byte (R89, R148). -/
def Obligations.EncoderEmitsOnlyItsChunks : Prop :=
  ∀ x : List Byte, ∃ cs : List Chunk,
    Codec.encode x = streamBytes cs ∧ (∀ c ∈ cs, encoderChunk c) ∧
    (∀ (cs₁ cs₂ : List Chunk) data k v, cs = cs₁ ++ .lit data :: .rep k v :: cs₂ → data.getLast? ≠ some v) ∧
    (∀ (cs₁ cs₂ : List Chunk) data data', cs = cs₁ ++ .lit data :: .lit data' :: cs₂ → data.length = 127)

/-- spec/41 R145: how a run of `m` equal bytes is split. First an input that is one run; then a run of two bytes or more
at the cursor of any input, with any literals pending: they are flushed, the repeats of 128 follow, and one byte left
over is a fresh scan position, which ends the input in a literal or joins the literal of the next byte. -/
def Obligations.LongRunsAreSplit : Prop :=
  (∀ (m : Nat) (v : Byte),
    Codec.encode (List.replicate m v) =
      (List.replicate (m / 128) [0x81#8, v]).flatten ++
      (if m % 128 = 0 then [] else if m % 128 = 1 then [0x00#8, v] else [BitVec.ofNat 8 (257 - m % 128), v])) ∧
  ∀ (x before after lit : List Byte) (m : Nat) (v : Byte),
    x = before ++ List.replicate m v ++ after → 2 ≤ m → after.head? ≠ some v →
    let split := Codec.lits lit ++ (List.replicate (m / 128) [0x81#8, v]).flatten
    let next := before.length + m
    (m % 128 = 0 → Codec.enc x before.length lit = split ++ Codec.enc x next []) ∧
    (2 ≤ m % 128 → Codec.enc x before.length lit =
      split ++ [BitVec.ofNat 8 (257 - m % 128), v] ++ Codec.enc x next []) ∧
    (m % 128 = 1 → after = [] → Codec.enc x before.length lit = split ++ [0x00#8, v]) ∧
    (m % 128 = 1 → after ≠ [] → Codec.enc x before.length lit = split ++ Codec.enc x next [v])

/-- spec/30 R87 and spec/42 R183: a sequence decodes to `z` exactly when it is a concatenation of complete chunks that
stand for `z`, and it is CorruptData exactly when it is no such concatenation. -/
def Obligations.DecodeFollowsTheGrammar : Prop :=
  ∀ y : List Byte,
    (∀ z, Codec.decode y = .ok z ↔ ∃ cs : List Chunk, (∀ c ∈ cs, c.wf) ∧ y = streamBytes cs ∧ z = streamOutput cs) ∧
    (Codec.decode y = .corruptData ↔ ¬ ∃ cs : List Chunk, (∀ c ∈ cs, c.wf) ∧ y = streamBytes cs)

/-- spec/42 R180: a NOP between two chunks changes nothing. -/
def Obligations.NopsBetweenChunksAreTransparent : Prop :=
  ∀ (cs : List Chunk) (y : List Byte), (∀ c ∈ cs, c.wf) →
    Codec.decode (streamBytes cs ++ 0x80#8 :: y) = Codec.decode (streamBytes cs ++ y)

/-! ### Buffers, reset and the host -/

/-- The step of the next event's instruction: what `step` does when the block executes an instruction. The instruction is
the command in `op` (spec/40 R119), and for DECODE the one whose control byte stands at `p` (spec/42 R172, R173). -/
def Obligations.StepRunsTheDecodedInstruction : Prop :=
  (∀ (s : State) (i : Instr), s.busy = true → s.phase = .run → s.nextInstr = .ok i →
    (s.schedule = [] → step s = exec i s) ∧
    ∀ rest, s.schedule = .blockTurn :: rest → step s = exec i { s with schedule := rest }) ∧
  (∀ (s : State) (i : Instr), decodeWord (.command s.op) = .ok i → i ≠ .decode → s.nextInstr = .ok i) ∧
  (∀ s : State, decodeWord (.command s.op) = .ok .decode → s.p = s.n.toNat → s.nextInstr = .ok .decode) ∧
  (∀ (s : State) (i : Instr) (rest : List Byte), decodeWord (.command s.op) = .ok .decode → s.p < s.n.toNat →
    s.inputFits → decodeStream (s.inputSeq.drop s.p) = .ok (i, rest) → s.nextInstr = .ok i)

/-- A placed instruction is the one the next step runs (the model's own placement, log 12). -/
def Obligations.PlacedInstructionRunsNext : Prop :=
  ∀ (s : State) (nbits w : Nat) (i : Instr), s.platform.wf → decodeTableWord nbits w = some i →
    step (s.withFetchWord nbits w) = exec i (s.withFetchWord nbits w)

/-- spec/70 R250: reset, at power-on and asserted in any state, leaves every register 0, CMD reading 0 and the block
idle, and the block starts nothing on its own after it. -/
def Obligations.ResetLeavesRegistersZeroAndBlockIdle : Prop :=
  (∀ P : Platform, ∃ s, s = State.resetFor P ∧ s.status = 0 ∧ s.inLen = 0 ∧ s.outLen = 0 ∧ s.convIn = 0 ∧
    s.convOut = 0 ∧ readValue .cmd s = .word 0 ∧ s.busy = false ∧ ∃ t, step s = .next t ∧ t.busy = false) ∧
  ∀ (s : State) (rest : List Event), s.schedule = .reset :: rest →
    ∃ t, step s = .next t ∧ t.schedule = rest ∧ t.status = 0 ∧ t.inLen = 0 ∧ t.outLen = 0 ∧ t.convIn = 0 ∧
      t.convOut = 0 ∧ readValue .cmd t = .word 0 ∧ t.busy = false ∧
      (rest = [] → ∃ u, step t = .next u ∧ u.busy = false)

/-- spec/70 R252 and spec/93 S4: after a power-on reset, on every platform, and after a reset asserted in any state, no
byte of either buffer is one that was stored before; each is a free value of a draw made at the reset (the draws are the
model's form of a free value, log 4 and log 19). -/
def Obligations.ResetDrawsTheBuffersAnew : Prop :=
  (∀ (P : Platform) (s : State), s = State.resetFor P →
    (∀ k, s.ibufByte k = Config.freeByte s.ibufDraw k) ∧ (∀ k, s.obufByte k = Config.freeByte s.obufDraw k) ∧
    s.ibufDraw ≠ s.obufDraw ∧ s.ibufDraw < s.draws ∧ s.obufDraw < s.draws) ∧
  ∀ (s : State) (rest : List Event), s.schedule = .reset :: rest →
    ∃ t, step s = .next t ∧ (∀ k, t.ibufByte k = Config.freeByte t.ibufDraw k) ∧
      (∀ k, t.obufByte k = Config.freeByte t.obufDraw k) ∧
      s.draws ≤ t.ibufDraw ∧ s.draws ≤ t.obufDraw ∧ t.ibufDraw ≠ t.obufDraw ∧
      t.ibufDraw < t.draws ∧ t.obufDraw < t.draws

/-- spec/40 R112: acceptance, for every value of `w`, legal or not. -/
def Obligations.AcceptanceLatchesTheCommand : Prop :=
  ∀ (s : State) (w : Word) (rest : List Event),
    s.busy = false → s.schedule = .host (.write .reg 0x00 32 w) :: rest →
    step s = .next { s with
      schedule := rest, op := w, n := s.inLen, i := 0, lit := [], p := 0, o := 0, phase := .check,
      status := 0x00000001#32 }

/-- spec/40 R113 and R114: while BUSY is 1 every host write is dropped, and changes no state. -/
def Obligations.WritesWhileBusyAreDropped : Prop :=
  ∀ (s : State) (space : Space) (offset width : Nat) (v : Word) (loc : Location) (rest : List Event),
    s.busy = true → locate s.platform space offset width = .ok loc →
    s.schedule = .host (.write space offset width v) :: rest → step s = .next { s with schedule := rest }

/-- spec/10 R24, R26, spec/20 R57, R60 and spec/40 R111: an idle write of IN_LEN, CONV_IN or a byte of IBUF stores and
changes nothing else; a write of STATUS, OUT_LEN, CONV_OUT or OBUF is ignored. -/
def Obligations.IdleWritesStoreOnlyTheirLocation : Prop :=
  ∀ (s : State) (v : Word) (rest : List Event), s.busy = false →
    (s.schedule = .host (.write .reg 0x08 32 v) :: rest → step s = .next { s with schedule := rest, inLen := v }) ∧
    (s.schedule = .host (.write .reg 0x10 32 v) :: rest → step s = .next { s with schedule := rest, convIn := v }) ∧
    (∀ k, k < s.platform.inCap → s.schedule = .host (.write .ibuf k 8 v) :: rest →
      ∃ t, step s = .next t ∧ t = { s with schedule := rest, ibuf := t.ibuf } ∧
        t.ibufByte k = BitVec.ofNat 8 v.toNat ∧ ∀ a, a ≠ k → t.ibufByte a = s.ibufByte a) ∧
    (∀ offset, offset = 0x04 ∨ offset = 0x0C ∨ offset = 0x14 →
      s.schedule = .host (.write .reg offset 32 v) :: rest → step s = .next { s with schedule := rest }) ∧
    (∀ k, k < s.platform.outCap → s.schedule = .host (.write .obuf k 8 v) :: rest →
      step s = .next { s with schedule := rest })

/-- spec/40 R111: what the reads that are defined now return; and that they change nothing of the block
(spec/20 R57). -/
def Obligations.DefinedReadsReturnTheStoredValue : Prop :=
  ∀ (s : State) (rest : List Event),
    let gives := fun (d : BusData) =>
      step s = .next { s with schedule := rest, received := d :: s.received }
    (s.schedule = .host (.read .reg 0x00 32) :: rest → gives (.word 0)) ∧
    (s.schedule = .host (.read .reg 0x04 32) :: rest → gives (.word s.status)) ∧
    (s.schedule = .host (.read .reg 0x08 32) :: rest → gives (.word s.inLen)) ∧
    (s.schedule = .host (.read .reg 0x10 32) :: rest → gives (.word s.convIn)) ∧
    (∀ k, k < s.platform.inCap → s.schedule = .host (.read .ibuf k 8) :: rest → gives (.byte (s.ibufByte k))) ∧
    (s.busy = false →
      (s.schedule = .host (.read .reg 0x0C 32) :: rest → gives (.word s.outLen)) ∧
      (s.schedule = .host (.read .reg 0x14 32) :: rest → gives (.word s.convOut)) ∧
      ∀ k, k < s.platform.outCap → s.schedule = .host (.read .obuf k 8) :: rest → gives (.byte (s.obufByte k)))

/-- spec/40 R121: while BUSY is 1 a read of OUT_LEN, CONV_OUT or a byte of OBUF returns a free value, a fresh draw for
each read (the draws are the model's form of a free value, log 4 and log 6). -/
def Obligations.ResultReadsWhileBusyAreFree : Prop :=
  ∀ (s : State) (rest : List Event), s.busy = true →
    let gives := fun (d : BusData) =>
      step s = .next { s with schedule := rest, received := d :: s.received, draws := s.draws + 1 }
    (s.schedule = .host (.read .reg 0x0C 32) :: rest → gives (.word (Config.freeWord s.draws))) ∧
    (s.schedule = .host (.read .reg 0x14 32) :: rest → gives (.word (Config.freeWord s.draws))) ∧
    ∀ k, k < s.platform.outCap → s.schedule = .host (.read .obuf k 8) :: rest →
      gives (.byte (Config.freeByte s.draws k))

/-- spec/20 R53: a register access has width 32, an offset that is a multiple of 4 and below 0x18, and gets a meaning;
one of any other width or alignment is refused, as is one at offset 0x18 or above (R55). -/
def Obligations.RegisterAccessesMustBeAlignedWords : Prop :=
  ∀ (s : State) (offset width : Nat) (v : Word) (rest : List Event) (op : HostOp),
    s.schedule = .host op :: rest → op = .write .reg offset width v ∨ op = .read .reg offset width →
    (width = 32 → offset % 4 = 0 → offset < 0x18 → ∃ t, step s = .next t) ∧
    (width ≠ 32 ∨ offset % 4 ≠ 0 ∨ 0x18 ≤ offset → ∃ r, step s = .refused r)

/-- spec/20 R54 and R55: a buffer access has width 8 and an index below the buffer's capacity, and gets a meaning; any
other is refused (under which of the model's names is its own choice, log 15). -/
def Obligations.BufferAccessesMustBeBytesInRange : Prop :=
  ∀ (s : State) (space : Space) (offset width cap : Nat) (v : Word) (rest : List Event) (op : HostOp),
    (space = .ibuf ∧ cap = s.platform.inCap ∨ space = .obuf ∧ cap = s.platform.outCap) →
    s.schedule = .host op :: rest → op = .write space offset width v ∨ op = .read space offset width →
    (width = 8 → offset < cap → ∃ t, step s = .next t) ∧
    (width ≠ 8 → step s = .refused .bufferWidth) ∧
    (width = 8 → cap ≤ offset → step s = .refused .bufferIndex)

/-- spec/00 R8, spec/20 R50 and R51: the bases place the three spaces. That byte `k` of a space stands at the base plus
`k` is read from them by inference, and that an address in none of the three spaces is refused is the model's choice
(log 2). -/
def Obligations.BusAddressesReachTheirSpace : Prop :=
  ∀ P : Platform, P.wf →
    (∀ k, k < 0x18 → placeOf P (P.regBase + k) = some (.reg, k)) ∧
    (∀ k, k < P.inCap → placeOf P (P.ibufBase + k) = some (.ibuf, k)) ∧
    (∀ k, k < P.outCap → placeOf P (P.obufBase + k) = some (.obuf, k)) ∧
    (∀ (a : Nat) (s : State) (width : Nat) (v : Word) (rest : List Event), s.platform = P → placeOf P a = none →
      step { s with schedule := .host (.writeAt a width v) :: rest } = .refused .addressOutside ∧
      step { s with schedule := .host (.readAt a width) :: rest } = .refused .addressOutside) ∧
    ∀ a space k, placeOf P a = some (space, k) →
      (space = .reg → a = P.regBase + k ∧ k < 0x18) ∧ (space = .ibuf → a = P.ibufBase + k ∧ k < P.inCap) ∧
      (space = .obuf → a = P.obufBase + k ∧ k < P.outCap) ∧
      ∀ (s : State) (width : Nat) (v : Word) (rest : List Event), s.platform = P →
        step { s with schedule := .host (.writeAt a width v) :: rest } =
          step { s with schedule := .host (.write space k width v) :: rest } ∧
        step { s with schedule := .host (.readAt a width) :: rest } =
          step { s with schedule := .host (.read space k width) :: rest }

/-- spec/40 R110: the block has no step while BUSY is 0. With nothing scheduled the idle machine stays as it is (the
model's choice, log 9), and a turn of an idle block is passed over. -/
def Obligations.IdleBlockDoesNothing : Prop :=
  ∀ s : State, s.busy = false →
    (s.schedule = [] → step s = .next s) ∧
    ∀ rest, s.schedule = .blockTurn :: rest → step s = .next { s with schedule := rest }

/-- spec/30 R95: `POLL` reads STATUS and, while it reads BUSY 1, reads it again; the model gives the block one turn
between two reads (its own choice, log 10). -/
def Obligations.PollReadsStatusUntilIdle : Prop :=
  ∀ (s : State) (rest : List Event), s.schedule = .poll :: rest →
    (s.busy = false →
      step s = .next { s with schedule := rest, received := .word s.status :: s.received }) ∧
    (s.busy = true →
      step s = .next { s with
        schedule := .blockTurn :: .poll :: rest, received := .word s.status :: s.received })

/-! ### The course of a command -/

/-- spec/40 R117, spec/60 R223 and R224: the CHECK step, taken with nothing scheduled or as a scheduled turn of the block.
Of a command it ends, the internal state is left open. -/
def Obligations.CheckStepRefusesIllegalCommands : Prop :=
  ∀ (s : State) (rest : List Event), s.busy = true → s.phase = .check →
    s.schedule = [] ∧ rest = [] ∨ s.schedule = .blockTurn :: rest →
    (s.op ≠ 1 → s.op ≠ 2 → s.op ≠ 3 → s.op ≠ 4 →
      ∃ t, step s = .next t ∧
        t = ({ s with schedule := rest, outLen := 0, status := 0x22#32 } : State).withInternal t) ∧
    (s.op = 1 ∨ s.op = 2 → s.platform.inCap < s.n.toNat →
      ∃ t, step s = .next t ∧
        t = ({ s with schedule := rest, outLen := 0, status := 0x32#32 } : State).withInternal t) ∧
    (s.op = 1 ∨ s.op = 2 → s.n.toNat ≤ s.platform.inCap →
      step s = .next { s with schedule := rest, phase := .run }) ∧
    (s.op = 3 ∨ s.op = 4 → step s = .next { s with schedule := rest, phase := .run })

/-- spec/60 R226: what `raise Err(e)` leaves, for each error code. That OBUF's unspecified bytes are one new draw, and
that the internal state stays, are the model's choices (log 5, log 7). -/
def Obligations.ErrorCompletionSetsStatusAndOutLen : Prop :=
  ∀ (s : State) (e : ErrCode),
    (s.raiseErr e).outLen = 0 ∧
    (s.raiseErr e).status = (errNumber e <<< 4) ||| 0x00000002#32 ∧
    statusERR (s.raiseErr e).status = (errNumber e).setWidth 4 ∧ statusDONE (s.raiseErr e).status = true ∧
    (s.raiseErr e).busy = false ∧
    (e = .illegalCmd ∨ e = .lenRange → s.raiseErr e = { s with outLen := 0, status := (s.raiseErr e).status }) ∧
    (e = .corruptData ∨ e = .outOverflow →
      s.raiseErr e = { s with
        outLen := 0, status := (s.raiseErr e).status, obuf := [], obufDraw := s.draws, draws := s.draws + 1 } ∧
      ∀ k, (s.raiseErr e).obufByte k = Config.freeByte s.draws k)

/-- spec/40 R118: `emit`. The state an overflow leaves is `State.lost` (log 5, log 7). -/
def Obligations.EmitStoresOneByteOrOverflows : Prop :=
  ∀ (s : State) (b : Byte),
    (s.o < s.platform.outCap → ∃ t, s.emit b = .ok t ∧ t = { s with obuf := t.obuf, o := s.o + 1 } ∧
      t.obufByte s.o = b ∧ ∀ k, k ≠ s.o → t.obufByte k = s.obufByte k) ∧
    (s.platform.outCap ≤ s.o → s.emit b = .error (s.lost 0x42#32))

/-! ### Stream instructions -/

/-- spec/42 R174: NOP. -/
def Obligations.NopAdvancesTheCursor : Prop :=
  ∀ s : State, exec .nop s = .next { s with p := s.p + 1 }

/-- spec/42 R175: a complete LIT chunk whose bytes fit OBUF copies its data bytes, advances, and changes nothing else. -/
def Obligations.LitCopiesItsData : Prop :=
  ∀ (s : State) (c : Int) (k : Nat), (Instr.lit c).wf → (k : Int) = c + 1 → s.inputFits →
    s.p + 1 + k ≤ s.n.toNat → s.o + k ≤ s.platform.outCap →
    ∃ t, exec (.lit c) s = .next t ∧ t = { s with p := s.p + 1 + k, o := s.o + k, obuf := t.obuf } ∧
      WritesAt s t s.o ((List.range k).map fun j => s.ibufByte (s.p + 1 + j))

/-- spec/42 R176: a complete REP chunk whose copies fit OBUF repeats its value, advances, and changes nothing else. -/
def Obligations.RepRepeatsItsValue : Prop :=
  ∀ (s : State) (c : Int) (k : Nat), (Instr.rep c).wf → (k : Int) = -c + 1 → s.inputFits →
    s.p + 2 ≤ s.n.toNat → s.o + k ≤ s.platform.outCap →
    ∃ t, exec (.rep c) s = .next t ∧ t = { s with p := s.p + 2, o := s.o + k, obuf := t.obuf } ∧
      WritesAt s t s.o (List.replicate k (s.ibufByte (s.p + 1)))

/-- spec/42 R177 and R178: a truncated chunk raises CORRUPT_DATA before it emits anything, also when it would
overflow. The state it leaves is `State.lost` (log 5, log 7). -/
def Obligations.TruncatedChunksRaiseCorruptData : Prop :=
  ∀ s : State,
    (∀ (c : Int) (k : Nat), (Instr.lit c).wf → (k : Int) = c + 1 → s.n.toNat < s.p + 1 + k →
      exec (.lit c) s = .next (s.lost 0x12#32)) ∧
    (∀ c : Int, (Instr.rep c).wf → s.n.toNat < s.p + 2 → exec (.rep c) s = .next (s.lost 0x12#32))

/-- spec/60 R225 and spec/42 R182: a complete chunk whose output does not fit OBUF raises OUT_OVERFLOW. The state it
leaves is `State.lost`, with the count the emits before the overflow reached (log 5, log 7). -/
def Obligations.OverflowingChunksRaiseOutOverflow : Prop :=
  ∀ s : State, s.inputFits → s.o ≤ s.platform.outCap →
    (∀ (c : Int) (k : Nat), (Instr.lit c).wf → (k : Int) = c + 1 → s.p + 1 + k ≤ s.n.toNat →
      s.platform.outCap < s.o + k →
      exec (.lit c) s = .next { s.lost 0x42#32 with o := s.platform.outCap }) ∧
    (∀ (c : Int) (k : Nat), (Instr.rep c).wf → (k : Int) = -c + 1 → s.p + 2 ≤ s.n.toNat →
      s.platform.outCap < s.o + k →
      exec (.rep c) s = .next { s.lost 0x42#32 with o := s.platform.outCap })

/-- spec/42 R172 and R173: with input left, DECODE executes exactly the stream instruction that the control byte at `p`
selects: NOP for 0x80, LIT for 0x00 to 0x7F, REP for 0x81 to 0xFF. -/
def Obligations.DecodeDispatchesOnTheControlByte : Prop :=
  ∀ s : State, s.inputFits → s.p < s.n.toNat →
    (s.ibufByte s.p = 0x80#8 → exec .decode s = exec .nop s) ∧
    ((s.ibufByte s.p).toNat ≤ 0x7F → exec .decode s = exec (.lit (s.ibufByte s.p).toNat) s) ∧
    (0x81 ≤ (s.ibufByte s.p).toNat → exec .decode s = exec (.rep ((s.ibufByte s.p).toNat - 256)) s)

/-- spec/42 R172 and spec/40 R120: with the input consumed, DECODE completes, and likewise ENCODE (spec/41 R132). That
the internal state stays is the model's choice (log 7). -/
def Obligations.CodecCommandsCompleteWhenConsumed : Prop :=
  ∀ s : State,
    (s.runs codeDecode → s.p = s.n.toNat →
      exec .decode s = .next { s with outLen := BitVec.ofNat 32 s.o, status := 0x00000002#32 }) ∧
    (s.runs codeEncode → s.i = s.n.toNat →
      exec .encode s = .next { s with outLen := BitVec.ofNat 32 s.o, status := 0x00000002#32 })

/-! ### Encoder steps -/

/-- spec/41 R137: `runLength` is the largest run length from the cursor, from 2 to 128, inside the input. -/
def Obligations.RunLengthIsTheLargest : Prop :=
  ∀ (s : State) (v : Byte), s.inputFits → s.i + 1 < s.n.toNat → s.ibufByte s.i = v → s.ibufByte (s.i + 1) = v →
    2 ≤ s.runLength v ∧ s.runLength v ≤ min 128 (s.n.toNat - s.i) ∧
    (∀ j < s.runLength v, s.ibufByte (s.i + j) = v) ∧
    ∀ M, M ≤ min 128 (s.n.toNat - s.i) → (∀ j < M, s.ibufByte (s.i + j) = v) → M ≤ s.runLength v

/-- spec/41 R134: the last byte joins the literal buffer, which is flushed. -/
def Obligations.EncodeTakesTheLastByte : Prop :=
  ∀ s : State, s.inputFits → s.i + 1 = s.n.toNat → s.lit.length ≤ 126 →
    s.o + (s.lit.length + 2) ≤ s.platform.outCap →
    ∃ t, exec .encode s = .next t ∧
      t = { s with i := s.n.toNat, lit := [], o := s.o + (s.lit.length + 2), obuf := t.obuf } ∧
      WritesAt s t s.o (BitVec.ofNat 8 s.lit.length :: (s.lit ++ [s.ibufByte s.i]))

/-- spec/41 R135: a byte that differs from the next joins the literal buffer, which is flushed when it reaches 127
bytes. -/
def Obligations.EncodeTakesADifferentByte : Prop :=
  ∀ s : State, s.inputFits → s.i + 1 < s.n.toNat → s.ibufByte (s.i + 1) ≠ s.ibufByte s.i →
    (s.lit.length < 126 → exec .encode s = .next { s with i := s.i + 1, lit := s.lit ++ [s.ibufByte s.i] }) ∧
    (s.lit.length = 126 → s.o + 128 ≤ s.platform.outCap →
      ∃ t, exec .encode s = .next t ∧ t = { s with i := s.i + 1, lit := [], o := s.o + 128, obuf := t.obuf } ∧
        WritesAt s t s.o (0x7E#8 :: (s.lit ++ [s.ibufByte s.i])))

/-- spec/41 R136, R138 and R139: a run is emitted after the pending literals, and the cursor passes it. -/
def Obligations.EncodeTakesARun : Prop :=
  ∀ (s : State) (L : Nat), s.inputFits → s.i + 1 < s.n.toNat → s.ibufByte (s.i + 1) = s.ibufByte s.i →
    s.lit.length ≤ 127 → L = s.runLength (s.ibufByte s.i) →
    (s.lit = [] → s.o + 2 ≤ s.platform.outCap →
      ∃ t, exec .encode s = .next t ∧ t = { s with i := s.i + L, o := s.o + 2, obuf := t.obuf } ∧
        WritesAt s t s.o [BitVec.ofNat 8 (257 - L), s.ibufByte s.i]) ∧
    (s.lit ≠ [] → s.o + (s.lit.length + 3) ≤ s.platform.outCap →
      ∃ t, exec .encode s = .next t ∧
        t = { s with i := s.i + L, lit := [], o := s.o + (s.lit.length + 3), obuf := t.obuf } ∧
        WritesAt s t s.o
          (BitVec.ofNat 8 (s.lit.length - 1) :: s.lit ++ [BitVec.ofNat 8 (257 - L), s.ibufByte s.i]))

/-- spec/41 R151 for one step: a step whose bytes do not fit OBUF raises OUT_OVERFLOW; OUT_LEN becomes 0 and every byte
of OBUF unspecified, and the inputs and the other registers stay. The state it leaves is `State.lost`, with the count the
emits before the overflow reached (log 5, log 7). -/
def Obligations.EncodeStepOverflows : Prop :=
  ∀ s : State, s.inputFits → s.i < s.n.toNat → s.o ≤ s.platform.outCap → s.lit.length ≤ 126 →
    (s.i + 1 = s.n.toNat → s.platform.outCap < s.o + (s.lit.length + 2) →
      exec .encode s = .next { s.lost 0x42#32 with o := s.platform.outCap, lit := s.lit ++ [s.ibufByte s.i] }) ∧
    (s.i + 1 < s.n.toNat → s.ibufByte (s.i + 1) ≠ s.ibufByte s.i → s.lit.length = 126 →
      s.platform.outCap < s.o + 128 →
      exec .encode s = .next { s.lost 0x42#32 with o := s.platform.outCap, lit := s.lit ++ [s.ibufByte s.i] }) ∧
    (s.i + 1 < s.n.toNat → s.ibufByte (s.i + 1) = s.ibufByte s.i →
      s.platform.outCap < s.o + (if s.lit = [] then 2 else s.lit.length + 3) →
      ∃ t, exec .encode s = .next t ∧ t = { s.lost 0x42#32 with o := s.platform.outCap, lit := t.lit })

/-! ### Converter commands -/

/-- spec/43 R204: TO_U8. CONV_OUT and STATUS change, and the internal state is left open; nothing else changes. -/
def Obligations.ToU8ZeroExtendsTheLowByte : Prop :=
  ∀ s : State, s.runs codeToU8 →
    ∃ t, exec .toU8 s = .next t ∧
      t = ({ s with convOut := t.convOut, status := 0x00000002#32 } : State).withInternal t ∧
      t.convOut.toNat = s.convIn.toNat % 256 ∧ t.convOut.toNat = (toUnsigned8 s.convIn.toInt).toNat

/-- spec/43 R205: TO_S8. CONV_OUT and STATUS change, and the internal state is left open; nothing else changes. -/
def Obligations.ToS8SignExtendsTheLowByte : Prop :=
  ∀ s : State, s.runs codeToS8 →
    ∃ t, exec .toS8 s = .next t ∧
      t = ({ s with convOut := t.convOut, status := 0x00000002#32 } : State).withInternal t ∧
      t.convOut.toInt = toSigned8 (BitVec.ofNat 8 (s.convIn.toNat % 256)) ∧
      ∀ j, j < 32 → t.convOut.getLsbD j = s.convIn.getLsbD (min j 7)

/-! ### Frames and invariants -/

/-- What no RUN step changes, whatever it does (spec/20 R58, spec/40 R115, spec/10 R27): the platform, the inputs of the
command, IBUF and every byte of it, the host's own fields; CONV_OUT but for the converter commands; and OUT_LEN while
the command runs on. That `op`, `n` and the phase stay also in the step that ends the command is the model's choice
(log 7). -/
def Obligations.RunStepsKeepTheInputs : Prop :=
  ∀ (i : Instr) (s t : State), exec i s = .next t →
    t.platform = s.platform ∧ t.inLen = s.inLen ∧ t.convIn = s.convIn ∧ t.op = s.op ∧ t.n = s.n ∧
    t.phase = s.phase ∧ t.schedule = s.schedule ∧ t.received = s.received ∧
    (∀ k, t.ibufByte k = s.ibufByte k) ∧
    (i ≠ .toU8 → i ≠ .toS8 → t.convOut = s.convOut) ∧
    (t.busy = true → t.outLen = s.outLen ∧ t.status = s.status)

/-- spec/20 R59 and spec/10 R30: a RUN step that ends in no error writes OBUF only at the indices from `o` on that it
counts, below OUT_CAP, and keeps every other byte; the cursors never move back. What it says of `o`, `i` and `p` after the
step that completes the command is the model's choice (log 7). -/
def Obligations.RunStepsWriteObufOnlyFromTheCount : Prop :=
  ∀ (i : Instr) (s t : State), s.status = statusAccepted → s.o ≤ s.platform.outCap → exec i s = .next t →
    t.status = statusAccepted ∨ t.status = statusCompleted →
    s.o ≤ t.o ∧ t.o ≤ s.platform.outCap ∧ s.i ≤ t.i ∧ s.p ≤ t.p ∧
    ∀ k, k < s.o ∨ t.o ≤ k → t.obufByte k = s.obufByte k

/-- spec/40 R115: while a command runs its inputs are fixed. Any step from a running command that is not a reset keeps
them, whether the host or the block takes it. That `op` and `n` stay also in the step that ends the command is the model's
choice (log 7). -/
def Obligations.InputsAreFixedWhileBusy : Prop :=
  ∀ s t : State, s.busy = true → (∀ rest, s.schedule ≠ .reset :: rest) → step s = .next t →
    t.op = s.op ∧ t.n = s.n ∧ t.inLen = s.inLen ∧ t.convIn = s.convIn ∧ ∀ k, t.ibufByte k = s.ibufByte k

/-- spec/10 R36 and spec/60 R230: while the block is idle STATUS keeps its value until a command is accepted or reset is
asserted: every other step of the host leaves it. -/
def Obligations.ResultCodeStaysUntilTheNextCommand : Prop :=
  ∀ s t : State, s.busy = false → step s = .next t →
    t.status = s.status ∨ (∃ rest, s.schedule = .reset :: rest ∧ t.status = 0) ∨
    (∃ op rest, s.schedule = .host op :: rest ∧ t.status = statusAccepted ∧
      ((∃ w, op = .write .reg 0x00 32 w) ∨ ∃ a w, op = .writeAt a 32 w ∧ placeOf s.platform a = some (.reg, 0)))

/-- The invariant holds right after reset, on every legal platform. -/
def Obligations.ResetSatisfiesTheInvariant : Prop :=
  (∀ P : Platform, P.wf → Inv (State.resetFor P)) ∧ Inv State.reset

/-- Every step keeps the invariant: legal STATUS values, OUT_LEN within OUT_CAP, CONV_OUT an extended byte, canonical
buffers within their capacities, sound cursors and literal buffer while a command runs. -/
def Obligations.EveryStepKeepsTheInvariant : Prop :=
  ∀ s t : State, Inv s → step s = .next t → Inv t

/-- spec/10 R23: what the invariant says of STATUS as the host reads it: BUSY and DONE never together, ERR 0 while busy
and never above 4, the reserved bits 0. -/
def Obligations.StatusFieldsAreConsistent : Prop :=
  ∀ s : State, Inv s →
    ¬ (statusBUSY s.status = true ∧ statusDONE s.status = true) ∧
    (statusBUSY s.status = true → statusERR s.status = 0) ∧ (statusERR s.status).toNat ≤ 4 ∧
    s.status.extractLsb' 2 2 = 0 ∧ s.status.extractLsb' 8 24 = 0

/-- In a state of the invariant the machine never stops with a fault, and it refuses only a host access that names no
location (spec/20 R55, spec/42 R181). -/
def Obligations.NoStepFaults : Prop :=
  ∀ s : State, Inv s →
    (∀ f, step s ≠ .fault f) ∧
    ∀ r, step s = .refused r → ∃ op rest, s.schedule = .host op :: rest ∧
      ((∃ space offset width v, op = .write space offset width v ∧ locate s.platform space offset width = .error r) ∨
       (∃ space offset width, op = .read space offset width ∧ locate s.platform space offset width = .error r) ∨
       (∃ a width v, op = .writeAt a width v ∧ locateAddress s.platform a width = .error r) ∨
       ∃ a width, op = .readAt a width ∧ locateAddress s.platform a width = .error r)

/-- spec/41 R139 and spec/42 R179: a RUN step of a codec command that leaves the command running moves its cursor forward
by at least 1 and not past `n`, whether nothing is scheduled or the block's turn is. -/
def Obligations.CursorsAdvance : Prop :=
  ∀ s t : State, Inv s → s.busy = true → s.phase = .run →
    s.schedule = [] ∨ (∃ rest, s.schedule = .blockTurn :: rest) → step s = .next t → t.busy = true →
    (s.op = codeEncode → s.i < t.i ∧ t.i ≤ s.n.toNat) ∧ (s.op = codeDecode → s.p < t.p ∧ t.p ≤ s.n.toNat)

/-- spec/41 R149 and spec/42 R183: every step, the host's or the block's, that leaves a codec command running keeps it on
course: what has been emitted and what is still to be emitted are `encode`, or `decode`, of the input. -/
def Obligations.CodecStepsStayOnCourse : Prop :=
  ∀ s t : State, Inv s → step s = .next t → t.busy = true →
    (s.runs codeEncode → EncoderOnCourse s → EncoderOnCourse t) ∧
    (s.runs codeDecode → DecoderOnCourse s → DecoderOnCourse t)

/-! ### Whole commands -/

/-- spec/41 R130 and R151, spec/40 R122: from any idle state, a write of ENCODE ends within one CHECK step and `n + 1`
RUN steps, with `encode` of the input in OBUF, OUT_LEN its length and every byte beyond it kept (spec/10 R30); with
OUT_OVERFLOW exactly when the output is longer than OUT_CAP; with LEN_RANGE when the input is longer than IN_CAP. Nothing
is scheduled after the write: the block goes on alone, which is the model's choice of schedule (log 8). -/
def Obligations.EncodeCommandComputesEncode : Prop :=
  ∀ s : State, s.platform.wf → s.busy = false → s.commanded codeEncode →
    ∃ (m : Nat) (t : State), EndsAt s m t ∧ m ≤ s.inLen.toNat + 3 ∧
      t.inLen = s.inLen ∧ t.convIn = s.convIn ∧ t.convOut = s.convOut ∧ (∀ k, t.ibufByte k = s.ibufByte k) ∧
      (s.inLen.toNat ≤ s.platform.inCap → (Codec.encode s.rawSeq).length ≤ s.platform.outCap →
        t.status = 0x02#32 ∧ t.outLen.toNat = (Codec.encode s.rawSeq).length ∧
        WritesAt s t 0 (Codec.encode s.rawSeq)) ∧
      (s.inLen.toNat ≤ s.platform.inCap → s.platform.outCap < (Codec.encode s.rawSeq).length →
        t.status = 0x42#32 ∧ t.outLen = 0) ∧
      (s.platform.inCap < s.inLen.toNat → t.status = 0x32#32 ∧ t.outLen = 0 ∧ ∀ k, t.obufByte k = s.obufByte k)

/-- spec/42 R170 and R182, spec/40 R122: from any idle state, a write of DECODE ends within one CHECK step and `n + 1`
RUN steps. If the input decodes to `z`, `z` is in OBUF and OUT_LEN its length, or OUT_OVERFLOW if it does not fit; if
the input is CorruptData, OUT_OVERFLOW when the complete chunks before the truncated one do not fit and CORRUPT_DATA
otherwise; LEN_RANGE when the input is longer than IN_CAP. Nothing is scheduled after the write: the block goes on alone,
which is the model's choice of schedule (log 8). -/
def Obligations.DecodeCommandComputesDecode : Prop :=
  ∀ s : State, s.platform.wf → s.busy = false → s.commanded codeDecode →
    ∃ (m : Nat) (t : State), EndsAt s m t ∧ m ≤ s.inLen.toNat + 3 ∧
      t.inLen = s.inLen ∧ t.convIn = s.convIn ∧ t.convOut = s.convOut ∧ (∀ k, t.ibufByte k = s.ibufByte k) ∧
      (s.inLen.toNat ≤ s.platform.inCap → ∀ z, Codec.decode s.rawSeq = .ok z →
        (z.length ≤ s.platform.outCap → t.status = 0x02#32 ∧ t.outLen.toNat = z.length ∧ WritesAt s t 0 z) ∧
        (s.platform.outCap < z.length → t.status = 0x42#32 ∧ t.outLen = 0)) ∧
      (s.inLen.toNat ≤ s.platform.inCap → Codec.decode s.rawSeq = .corruptData →
        (s.platform.outCap < (streamOutput (parse s.rawSeq).1).length → t.status = 0x42#32 ∧ t.outLen = 0) ∧
        ((streamOutput (parse s.rawSeq).1).length ≤ s.platform.outCap → t.status = 0x12#32 ∧ t.outLen = 0)) ∧
      (s.platform.inCap < s.inLen.toNat → t.status = 0x32#32 ∧ t.outLen = 0 ∧ ∀ k, t.obufByte k = s.obufByte k)

/-- spec/43 R204 and R205, spec/30 R93: from any idle state, the converter commands and the illegal words end within
three steps, the accepting one among them, and leave OUT_LEN (but for the illegal word), OBUF, IBUF and the inputs.
Nothing is scheduled after the write: the block goes on alone, which is the model's choice of schedule (log 8). -/
def Obligations.OtherCommandsEndInThreeSteps : Prop :=
  ∀ (s : State) (w : Word), w ≠ codeEncode → w ≠ codeDecode → s.busy = false → s.commanded w →
    ∃ (m : Nat) (t : State), EndsAt s m t ∧ m ≤ 3 ∧
      (w = codeToU8 → t.status = 0x02#32 ∧ t.outLen = s.outLen ∧ t.convOut = (s.convIn.setWidth 8).setWidth 32) ∧
      (w = codeToS8 → t.status = 0x02#32 ∧ t.outLen = s.outLen ∧ t.convOut = (s.convIn.setWidth 8).signExtend 32) ∧
      (w ≠ codeToU8 → w ≠ codeToS8 → t.status = 0x22#32 ∧ t.outLen = 0 ∧ t.convOut = s.convOut) ∧
      t.inLen = s.inLen ∧ t.convIn = s.convIn ∧ (∀ k, t.ibufByte k = s.ibufByte k) ∧
      ∀ k, t.obufByte k = s.obufByte k

/-- spec/00 R13 and spec/40 R116: the result of a command, legal or not, depends only on the command word, IN_LEN, the
input sequence, CONV_IN and the capacities. Two idle states that agree on these end after the same number of steps with
the same STATUS; with the same CONV_OUT for the converter commands and the same OUT_LEN for every other word; and, for a
codec command that succeeds, with the same output: whatever OUT_LEN, CONV_OUT, OBUF, the internal state and the draws
were. Nothing is scheduled after the write: the block goes on alone, which is the model's choice of schedule (log 8). -/
def Obligations.ResultsDependOnlyOnTheInputs : Prop :=
  ∀ (s s' : State) (w : Word), s.platform.wf → s.busy = false → s'.busy = false → s.commanded w → s'.commanded w →
    s'.platform.inCap = s.platform.inCap → s'.platform.outCap = s.platform.outCap → s'.inLen = s.inLen →
    s'.rawSeq = s.rawSeq → s'.convIn = s.convIn →
    ∃ (m : Nat) (t t' : State), EndsAt s m t ∧ EndsAt s' m t' ∧ t'.status = t.status ∧
      (w = codeToU8 ∨ w = codeToS8 → t'.convOut = t.convOut) ∧
      (w ≠ codeToU8 → w ≠ codeToS8 → t'.outLen = t.outLen) ∧
      (isCodecCommand w = true → t.status = statusCompleted →
        t'.outputSeq t'.outLen.toNat = t.outputSeq t.outLen.toNat)
end

