-- ==== Sys2Proof/Laws/Memory.lean ====
section
/-! SUPPORT. The laws of a buffer's contents: a read after a write, and that a write keeps the canonical form. -/

namespace Sys2Proof.Machine

@[simp] theorem Memory.read?_nil (a : Nat) : Memory.read? [] a = none := rfl

theorem Memory.read?_cons (k : Nat) (v : Byte) (m : Memory) (a : Nat) :
    Memory.read? ((k, v) :: m) a = if a = k then some v else Memory.read? m a := rfl

/-- What a byte reads as after a write, at every index. -/
theorem Memory.read?_write (m : Memory) (a b : Nat) (v : Byte) :
    (m.write a v).read? b = if b = a then some v else m.read? b := by
  induction m with
  | nil => simp [Memory.write, Memory.read?]
  | cons c m ih =>
    obtain ⟨k, w⟩ := c
    simp only [Memory.write]
    split
    · simp [Memory.read?]
    · split
      · subst_vars
        simp only [Memory.read?]
        split <;> simp_all
      · simp only [Memory.read?, ih]
        split <;> split <;> simp_all

@[simp] theorem Memory.read?_write_same (m : Memory) (a : Nat) (v : Byte) : (m.write a v).read? a = some v := by
  simp [Memory.read?_write]

theorem Memory.read?_write_other (m : Memory) {a b : Nat} (v : Byte) (h : b ≠ a) :
    (m.write a v).read? b = m.read? b := by simp [Memory.read?_write, h]

/-- A listed index of a written memory is the written one or was listed before. -/
theorem Memory.mem_write {m : Memory} {a : Nat} {v : Byte} {c : Host.Cell} (h : c ∈ m.write a v) :
    c = (a, v) ∨ c ∈ m := by
  induction m with
  | nil => simpa [Memory.write] using h
  | cons d m ih =>
    obtain ⟨k, w⟩ := d
    simp only [Memory.write] at h
    split at h
    · simpa [or_assoc] using h
    · split at h
      · rcases List.mem_cons.mp h with h | h <;> simp [h]
      · rcases List.mem_cons.mp h with h | h
        · simp [h]
        · rcases ih h with h | h <;> simp [h]

/-- A write keeps the canonical form. -/
theorem Memory.wf_write {m : Memory} (a : Nat) (v : Byte) (h : m.wf) : (m.write a v).wf := by
  induction m with
  | nil => simp [Memory.write, Memory.wf]
  | cons d m ih =>
    obtain ⟨k, w⟩ := d
    rw [Memory.wf, List.pairwise_cons] at h
    simp only [Memory.write]
    split
    · next hak =>
      refine List.pairwise_cons.mpr ⟨?_, List.pairwise_cons.mpr h⟩
      intro c hc
      rcases List.mem_cons.mp hc with rfl | hc
      · exact hak
      · exact Nat.lt_trans hak (h.1 c hc)
    · split
      · next hak => subst hak; exact List.pairwise_cons.mpr h
      · next h1 h2 =>
        refine List.pairwise_cons.mpr ⟨?_, ih h.2⟩
        intro c hc
        rcases Memory.mem_write hc with rfl | hc
        · simp only; omega
        · exact h.1 c hc

/-- What a byte reads as after a sequence is stored. -/
theorem Memory.read?_writeFrom (bs : List Byte) (m : Memory) (a k : Nat) :
    (m.writeFrom a bs).read? k = if a ≤ k ∧ k < a + bs.length then bs[k - a]? else m.read? k := by
  induction bs generalizing m a with
  | nil =>
    have h : ¬ (a ≤ k ∧ k < a + ([] : List Byte).length) := by simp
    rw [if_neg h]; rfl
  | cons b bs ih =>
    simp only [Memory.writeFrom, ih, Memory.read?_write, List.length_cons]
    by_cases h1 : k = a
    · subst h1
      simp
    · by_cases h2 : a + 1 ≤ k ∧ k < a + 1 + bs.length
      · obtain ⟨d, rfl⟩ : ∃ d, k = a + 1 + d := ⟨k - (a + 1), by omega⟩
        have h3 : a ≤ a + 1 + d ∧ a + 1 + d < a + (bs.length + 1) := by omega
        rw [if_pos h2, if_pos h3, show a + 1 + d - a = d + 1 by omega, show a + 1 + d - (a + 1) = d by omega]
        rfl
      · have h3 : ¬ (a ≤ k ∧ k < a + (bs.length + 1)) := by omega
        rw [if_neg h2, if_neg h3, if_neg h1]

theorem Memory.mem_writeFrom {bs : List Byte} {m : Memory} {a : Nat} {c : Host.Cell} (h : c ∈ m.writeFrom a bs) :
    (a ≤ c.1 ∧ c.1 < a + bs.length) ∨ c ∈ m := by
  induction bs generalizing m a with
  | nil => exact .inr h
  | cons b bs ih =>
    rcases ih h with h | h
    · left; simp only [List.length_cons]; omega
    · rcases Memory.mem_write h with rfl | h
      · left; simp
      · exact .inr h

/-- Storing a sequence keeps the canonical form. -/
theorem Memory.wf_writeFrom {m : Memory} (bs : List Byte) (a : Nat) (h : m.wf) : (m.writeFrom a bs).wf := by
  induction bs generalizing m a with
  | nil => exact h
  | cons b bs ih => exact ih (a + 1) (Memory.wf_write a b h)

/-- Storing a sequence and then another right after it is storing both. -/
theorem Memory.writeFrom_append (m : Memory) (a : Nat) (bs cs : List Byte) :
    m.writeFrom a (bs ++ cs) = (m.writeFrom a bs).writeFrom (a + bs.length) cs := by
  induction bs generalizing m a with
  | nil => rfl
  | cons b bs ih =>
    have h : a + (bs.length + 1) = a + 1 + bs.length := by omega
    simp only [List.cons_append, Memory.writeFrom, ih, List.length_cons, h]

/-- A listed index reads as listed, in a memory in canonical form. -/
theorem Memory.read?_of_mem {m : Memory} (h : m.wf) {c : Host.Cell} (hc : c ∈ m) : m.read? c.1 = some c.2 := by
  induction m with
  | nil => simp at hc
  | cons d m ih =>
    rw [Memory.wf, List.pairwise_cons] at h
    rw [Memory.read?_cons]
    rcases List.mem_cons.mp hc with rfl | hc
    · simp
    · rw [if_neg (by have := h.1 c hc; omega), ih h.2 hc]

theorem Memory.mem_of_read? {m : Memory} {a : Nat} {v : Byte} (h : m.read? a = some v) : (a, v) ∈ m := by
  induction m with
  | nil => simp at h
  | cons d m ih =>
    obtain ⟨k, w⟩ := d
    rw [Memory.read?_cons] at h
    split at h
    · simp_all
    · exact List.mem_cons_of_mem _ (ih h)

/-- Two memories in canonical form that read alike are equal data. -/
theorem Memory.ext_of_wf {m m' : Memory} (h : m.wf) (h' : m'.wf) (hr : ∀ a, m.read? a = m'.read? a) : m = m' := by
  refine List.Perm.eq_of_pairwise (le := fun x y => x.1 < y.1) ?_ h h' ?_
  · intro a b _ _ hab hba; omega
  · refine (List.perm_ext_iff_of_nodup ?_ ?_).mpr ?_
    · exact h.imp fun {a b} hab hne => by subst hne; omega
    · exact h'.imp fun {a b} hab hne => by subst hne; omega
    · intro c
      refine ⟨fun hc => ?_, fun hc => ?_⟩
      · have := Memory.read?_of_mem h hc
        exact Memory.mem_of_read? ((hr c.1).symm.trans this)
      · have := Memory.read?_of_mem h' hc
        exact Memory.mem_of_read? ((hr c.1).trans this)

end Sys2Proof.Machine
end

