-- ==== Sys2Proof/Laws/State.lean ====
section
/-! SUPPORT. For each named update of the state, one lemma per field. -/

namespace Sys2Proof.Machine

/-! ### Acceptance (spec/40 R112) -/

@[simp] theorem State.accept_platform (s : State) (w : Word) : (s.accept w).platform = s.platform := rfl
@[simp] theorem State.accept_status (s : State) (w : Word) : (s.accept w).status = statusAccepted := rfl
@[simp] theorem State.accept_inLen (s : State) (w : Word) : (s.accept w).inLen = s.inLen := rfl
@[simp] theorem State.accept_outLen (s : State) (w : Word) : (s.accept w).outLen = s.outLen := rfl
@[simp] theorem State.accept_convIn (s : State) (w : Word) : (s.accept w).convIn = s.convIn := rfl
@[simp] theorem State.accept_convOut (s : State) (w : Word) : (s.accept w).convOut = s.convOut := rfl
@[simp] theorem State.accept_ibuf (s : State) (w : Word) : (s.accept w).ibuf = s.ibuf := rfl
@[simp] theorem State.accept_ibufDraw (s : State) (w : Word) : (s.accept w).ibufDraw = s.ibufDraw := rfl
@[simp] theorem State.accept_obuf (s : State) (w : Word) : (s.accept w).obuf = s.obuf := rfl
@[simp] theorem State.accept_obufDraw (s : State) (w : Word) : (s.accept w).obufDraw = s.obufDraw := rfl
@[simp] theorem State.accept_op (s : State) (w : Word) : (s.accept w).op = w := rfl
@[simp] theorem State.accept_phase (s : State) (w : Word) : (s.accept w).phase = .check := rfl
@[simp] theorem State.accept_n (s : State) (w : Word) : (s.accept w).n = s.inLen := rfl
@[simp] theorem State.accept_i (s : State) (w : Word) : (s.accept w).i = 0 := rfl
@[simp] theorem State.accept_lit (s : State) (w : Word) : (s.accept w).lit = [] := rfl
@[simp] theorem State.accept_p (s : State) (w : Word) : (s.accept w).p = 0 := rfl
@[simp] theorem State.accept_o (s : State) (w : Word) : (s.accept w).o = 0 := rfl
@[simp] theorem State.accept_draws (s : State) (w : Word) : (s.accept w).draws = s.draws := rfl
@[simp] theorem State.accept_schedule (s : State) (w : Word) : (s.accept w).schedule = s.schedule := rfl
@[simp] theorem State.accept_received (s : State) (w : Word) : (s.accept w).received = s.received := rfl

/-! ### Completion (spec/40 R120) -/

@[simp] theorem State.complete_platform (s : State) : (s.complete).platform = s.platform := rfl
@[simp] theorem State.complete_status (s : State) : (s.complete).status = statusCompleted := rfl
@[simp] theorem State.complete_inLen (s : State) : (s.complete).inLen = s.inLen := rfl
@[simp] theorem State.complete_outLen (s : State) : (s.complete).outLen = if isCodecCommand s.op then BitVec.ofNat 32 s.o else s.outLen := rfl
@[simp] theorem State.complete_convIn (s : State) : (s.complete).convIn = s.convIn := rfl
@[simp] theorem State.complete_convOut (s : State) : (s.complete).convOut = s.convOut := rfl
@[simp] theorem State.complete_ibuf (s : State) : (s.complete).ibuf = s.ibuf := rfl
@[simp] theorem State.complete_ibufDraw (s : State) : (s.complete).ibufDraw = s.ibufDraw := rfl
@[simp] theorem State.complete_obuf (s : State) : (s.complete).obuf = s.obuf := rfl
@[simp] theorem State.complete_obufDraw (s : State) : (s.complete).obufDraw = s.obufDraw := rfl
@[simp] theorem State.complete_op (s : State) : (s.complete).op = s.op := rfl
@[simp] theorem State.complete_phase (s : State) : (s.complete).phase = s.phase := rfl
@[simp] theorem State.complete_n (s : State) : (s.complete).n = s.n := rfl
@[simp] theorem State.complete_i (s : State) : (s.complete).i = s.i := rfl
@[simp] theorem State.complete_lit (s : State) : (s.complete).lit = s.lit := rfl
@[simp] theorem State.complete_p (s : State) : (s.complete).p = s.p := rfl
@[simp] theorem State.complete_o (s : State) : (s.complete).o = s.o := rfl
@[simp] theorem State.complete_draws (s : State) : (s.complete).draws = s.draws := rfl
@[simp] theorem State.complete_schedule (s : State) : (s.complete).schedule = s.schedule := rfl
@[simp] theorem State.complete_received (s : State) : (s.complete).received = s.received := rfl

/-! ### A fresh OBUF (spec/93 S3) -/

@[simp] theorem State.redrawObuf_platform (s : State) : (s.redrawObuf).platform = s.platform := rfl
@[simp] theorem State.redrawObuf_status (s : State) : (s.redrawObuf).status = s.status := rfl
@[simp] theorem State.redrawObuf_inLen (s : State) : (s.redrawObuf).inLen = s.inLen := rfl
@[simp] theorem State.redrawObuf_outLen (s : State) : (s.redrawObuf).outLen = s.outLen := rfl
@[simp] theorem State.redrawObuf_convIn (s : State) : (s.redrawObuf).convIn = s.convIn := rfl
@[simp] theorem State.redrawObuf_convOut (s : State) : (s.redrawObuf).convOut = s.convOut := rfl
@[simp] theorem State.redrawObuf_ibuf (s : State) : (s.redrawObuf).ibuf = s.ibuf := rfl
@[simp] theorem State.redrawObuf_ibufDraw (s : State) : (s.redrawObuf).ibufDraw = s.ibufDraw := rfl
@[simp] theorem State.redrawObuf_obuf (s : State) : (s.redrawObuf).obuf = [] := rfl
@[simp] theorem State.redrawObuf_obufDraw (s : State) : (s.redrawObuf).obufDraw = s.draws := rfl
@[simp] theorem State.redrawObuf_op (s : State) : (s.redrawObuf).op = s.op := rfl
@[simp] theorem State.redrawObuf_phase (s : State) : (s.redrawObuf).phase = s.phase := rfl
@[simp] theorem State.redrawObuf_n (s : State) : (s.redrawObuf).n = s.n := rfl
@[simp] theorem State.redrawObuf_i (s : State) : (s.redrawObuf).i = s.i := rfl
@[simp] theorem State.redrawObuf_lit (s : State) : (s.redrawObuf).lit = s.lit := rfl
@[simp] theorem State.redrawObuf_p (s : State) : (s.redrawObuf).p = s.p := rfl
@[simp] theorem State.redrawObuf_o (s : State) : (s.redrawObuf).o = s.o := rfl
@[simp] theorem State.redrawObuf_draws (s : State) : (s.redrawObuf).draws = s.draws + 1 := rfl
@[simp] theorem State.redrawObuf_schedule (s : State) : (s.redrawObuf).schedule = s.schedule := rfl
@[simp] theorem State.redrawObuf_received (s : State) : (s.redrawObuf).received = s.received := rfl

/-! ### Errors (spec/60 R226) -/

@[simp] theorem State.raiseErr_platform (s : State) (e : ErrCode) : (s.raiseErr e).platform = s.platform := by cases e <;> rfl
@[simp] theorem State.raiseErr_status (s : State) (e : ErrCode) : (s.raiseErr e).status = statusError e := by cases e <;> rfl
@[simp] theorem State.raiseErr_inLen (s : State) (e : ErrCode) : (s.raiseErr e).inLen = s.inLen := by cases e <;> rfl
@[simp] theorem State.raiseErr_outLen (s : State) (e : ErrCode) : (s.raiseErr e).outLen = 0 := by cases e <;> rfl
@[simp] theorem State.raiseErr_convIn (s : State) (e : ErrCode) : (s.raiseErr e).convIn = s.convIn := by cases e <;> rfl
@[simp] theorem State.raiseErr_convOut (s : State) (e : ErrCode) : (s.raiseErr e).convOut = s.convOut := by cases e <;> rfl
@[simp] theorem State.raiseErr_ibuf (s : State) (e : ErrCode) : (s.raiseErr e).ibuf = s.ibuf := by cases e <;> rfl
@[simp] theorem State.raiseErr_ibufDraw (s : State) (e : ErrCode) : (s.raiseErr e).ibufDraw = s.ibufDraw := by cases e <;> rfl
@[simp] theorem State.raiseErr_obuf (s : State) (e : ErrCode) : (s.raiseErr e).obuf = if errLosesObuf e then [] else s.obuf := by cases e <;> rfl
@[simp] theorem State.raiseErr_obufDraw (s : State) (e : ErrCode) : (s.raiseErr e).obufDraw = if errLosesObuf e then s.draws else s.obufDraw := by cases e <;> rfl
@[simp] theorem State.raiseErr_op (s : State) (e : ErrCode) : (s.raiseErr e).op = s.op := by cases e <;> rfl
@[simp] theorem State.raiseErr_phase (s : State) (e : ErrCode) : (s.raiseErr e).phase = s.phase := by cases e <;> rfl
@[simp] theorem State.raiseErr_n (s : State) (e : ErrCode) : (s.raiseErr e).n = s.n := by cases e <;> rfl
@[simp] theorem State.raiseErr_i (s : State) (e : ErrCode) : (s.raiseErr e).i = s.i := by cases e <;> rfl
@[simp] theorem State.raiseErr_lit (s : State) (e : ErrCode) : (s.raiseErr e).lit = s.lit := by cases e <;> rfl
@[simp] theorem State.raiseErr_p (s : State) (e : ErrCode) : (s.raiseErr e).p = s.p := by cases e <;> rfl
@[simp] theorem State.raiseErr_o (s : State) (e : ErrCode) : (s.raiseErr e).o = s.o := by cases e <;> rfl
@[simp] theorem State.raiseErr_draws (s : State) (e : ErrCode) : (s.raiseErr e).draws = if errLosesObuf e then s.draws + 1 else s.draws := by cases e <;> rfl
@[simp] theorem State.raiseErr_schedule (s : State) (e : ErrCode) : (s.raiseErr e).schedule = s.schedule := by cases e <;> rfl
@[simp] theorem State.raiseErr_received (s : State) (e : ErrCode) : (s.raiseErr e).received = s.received := by cases e <;> rfl

/-! ### A command that ends with OBUF lost -/

@[simp] theorem State.lost_platform (s : State) (w : Word) : (s.lost w).platform = s.platform := rfl
@[simp] theorem State.lost_status (s : State) (w : Word) : (s.lost w).status = w := rfl
@[simp] theorem State.lost_inLen (s : State) (w : Word) : (s.lost w).inLen = s.inLen := rfl
@[simp] theorem State.lost_outLen (s : State) (w : Word) : (s.lost w).outLen = 0 := rfl
@[simp] theorem State.lost_convIn (s : State) (w : Word) : (s.lost w).convIn = s.convIn := rfl
@[simp] theorem State.lost_convOut (s : State) (w : Word) : (s.lost w).convOut = s.convOut := rfl
@[simp] theorem State.lost_ibuf (s : State) (w : Word) : (s.lost w).ibuf = s.ibuf := rfl
@[simp] theorem State.lost_ibufDraw (s : State) (w : Word) : (s.lost w).ibufDraw = s.ibufDraw := rfl
@[simp] theorem State.lost_obuf (s : State) (w : Word) : (s.lost w).obuf = [] := rfl
@[simp] theorem State.lost_obufDraw (s : State) (w : Word) : (s.lost w).obufDraw = s.draws := rfl
@[simp] theorem State.lost_op (s : State) (w : Word) : (s.lost w).op = s.op := rfl
@[simp] theorem State.lost_phase (s : State) (w : Word) : (s.lost w).phase = s.phase := rfl
@[simp] theorem State.lost_n (s : State) (w : Word) : (s.lost w).n = s.n := rfl
@[simp] theorem State.lost_i (s : State) (w : Word) : (s.lost w).i = s.i := rfl
@[simp] theorem State.lost_lit (s : State) (w : Word) : (s.lost w).lit = s.lit := rfl
@[simp] theorem State.lost_p (s : State) (w : Word) : (s.lost w).p = s.p := rfl
@[simp] theorem State.lost_o (s : State) (w : Word) : (s.lost w).o = s.o := rfl
@[simp] theorem State.lost_draws (s : State) (w : Word) : (s.lost w).draws = s.draws + 1 := rfl
@[simp] theorem State.lost_schedule (s : State) (w : Word) : (s.lost w).schedule = s.schedule := rfl
@[simp] theorem State.lost_received (s : State) (w : Word) : (s.lost w).received = s.received := rfl

/-! ### Reset (spec/70 R250 to R252) -/

@[simp] theorem State.assertReset_platform (s : State) : (s.assertReset).platform = s.platform := rfl
@[simp] theorem State.assertReset_status (s : State) : (s.assertReset).status = 0 := rfl
@[simp] theorem State.assertReset_inLen (s : State) : (s.assertReset).inLen = 0 := rfl
@[simp] theorem State.assertReset_outLen (s : State) : (s.assertReset).outLen = 0 := rfl
@[simp] theorem State.assertReset_convIn (s : State) : (s.assertReset).convIn = 0 := rfl
@[simp] theorem State.assertReset_convOut (s : State) : (s.assertReset).convOut = 0 := rfl
@[simp] theorem State.assertReset_ibuf (s : State) : (s.assertReset).ibuf = [] := rfl
@[simp] theorem State.assertReset_ibufDraw (s : State) : (s.assertReset).ibufDraw = s.draws := rfl
@[simp] theorem State.assertReset_obuf (s : State) : (s.assertReset).obuf = [] := rfl
@[simp] theorem State.assertReset_obufDraw (s : State) : (s.assertReset).obufDraw = s.draws + 1 := rfl
@[simp] theorem State.assertReset_op (s : State) : (s.assertReset).op = 0 := rfl
@[simp] theorem State.assertReset_phase (s : State) : (s.assertReset).phase = .check := rfl
@[simp] theorem State.assertReset_n (s : State) : (s.assertReset).n = 0 := rfl
@[simp] theorem State.assertReset_i (s : State) : (s.assertReset).i = 0 := rfl
@[simp] theorem State.assertReset_lit (s : State) : (s.assertReset).lit = [] := rfl
@[simp] theorem State.assertReset_p (s : State) : (s.assertReset).p = 0 := rfl
@[simp] theorem State.assertReset_o (s : State) : (s.assertReset).o = 0 := rfl
@[simp] theorem State.assertReset_draws (s : State) : (s.assertReset).draws = s.draws + 2 := rfl
@[simp] theorem State.assertReset_schedule (s : State) : (s.assertReset).schedule = s.schedule := rfl
@[simp] theorem State.assertReset_received (s : State) : (s.assertReset).received = s.received := rfl

/-! ### Host reads (spec/20 R57, spec/40 R121) -/

@[simp] theorem State.hostRead_platform (loc : Location) (s : State) : (hostRead loc s).platform = s.platform := rfl
@[simp] theorem State.hostRead_status (loc : Location) (s : State) : (hostRead loc s).status = s.status := rfl
@[simp] theorem State.hostRead_inLen (loc : Location) (s : State) : (hostRead loc s).inLen = s.inLen := rfl
@[simp] theorem State.hostRead_outLen (loc : Location) (s : State) : (hostRead loc s).outLen = s.outLen := rfl
@[simp] theorem State.hostRead_convIn (loc : Location) (s : State) : (hostRead loc s).convIn = s.convIn := rfl
@[simp] theorem State.hostRead_convOut (loc : Location) (s : State) : (hostRead loc s).convOut = s.convOut := rfl
@[simp] theorem State.hostRead_ibuf (loc : Location) (s : State) : (hostRead loc s).ibuf = s.ibuf := rfl
@[simp] theorem State.hostRead_ibufDraw (loc : Location) (s : State) : (hostRead loc s).ibufDraw = s.ibufDraw := rfl
@[simp] theorem State.hostRead_obuf (loc : Location) (s : State) : (hostRead loc s).obuf = s.obuf := rfl
@[simp] theorem State.hostRead_obufDraw (loc : Location) (s : State) : (hostRead loc s).obufDraw = s.obufDraw := rfl
@[simp] theorem State.hostRead_op (loc : Location) (s : State) : (hostRead loc s).op = s.op := rfl
@[simp] theorem State.hostRead_phase (loc : Location) (s : State) : (hostRead loc s).phase = s.phase := rfl
@[simp] theorem State.hostRead_n (loc : Location) (s : State) : (hostRead loc s).n = s.n := rfl
@[simp] theorem State.hostRead_i (loc : Location) (s : State) : (hostRead loc s).i = s.i := rfl
@[simp] theorem State.hostRead_lit (loc : Location) (s : State) : (hostRead loc s).lit = s.lit := rfl
@[simp] theorem State.hostRead_p (loc : Location) (s : State) : (hostRead loc s).p = s.p := rfl
@[simp] theorem State.hostRead_o (loc : Location) (s : State) : (hostRead loc s).o = s.o := rfl
@[simp] theorem State.hostRead_draws (loc : Location) (s : State) : (hostRead loc s).draws = if readIsFree loc s then s.draws + 1 else s.draws := rfl
@[simp] theorem State.hostRead_schedule (loc : Location) (s : State) : (hostRead loc s).schedule = s.schedule := rfl
@[simp] theorem State.hostRead_received (loc : Location) (s : State) : (hostRead loc s).received = readValue loc s :: s.received := rfl

/-! ### The bytes of the buffers depend on two fields each -/

theorem State.ibufByte_congr {s t : State} (h : t.ibuf = s.ibuf) (hd : t.ibufDraw = s.ibufDraw) (k : Nat) :
    t.ibufByte k = s.ibufByte k := by simp [State.ibufByte, h, hd]

theorem State.obufByte_congr {s t : State} (h : t.obuf = s.obuf) (hd : t.obufDraw = s.obufDraw) (k : Nat) :
    t.obufByte k = s.obufByte k := by simp [State.obufByte, h, hd]

theorem State.inputSeq_congr {s t : State} (hn : t.n = s.n) (h : t.ibuf = s.ibuf) (hd : t.ibufDraw = s.ibufDraw) :
    t.inputSeq = s.inputSeq := by simp [State.inputSeq, hn, State.ibufByte, h, hd]

theorem State.input?_congr {s t : State} (hp : t.platform = s.platform) (hn : t.n = s.n) (h : t.ibuf = s.ibuf)
    (hd : t.ibufDraw = s.ibufDraw) (k : Nat) : t.input? k = s.input? k := by
  simp [State.input?, hp, hn, State.ibufByte, h, hd]

@[simp] theorem State.busy_of_accepted {s : State} (h : s.status = statusAccepted) : s.busy = true := by
  simp [State.busy, h, statusAccepted, statusBUSY]

@[simp] theorem State.not_busy_of_completed {s : State} (h : s.status = statusCompleted) : s.busy = false := by
  simp [State.busy, h, statusCompleted, statusBUSY]

@[simp] theorem statusBUSY_error (e : ErrCode) : statusBUSY (statusError e) = false := by cases e <;> decide

/-- Losing OBUF is what CORRUPT_DATA and OUT_OVERFLOW do. -/
theorem State.raiseErr_eq_lost (s : State) (e : ErrCode) (h : errLosesObuf e = true) :
    s.raiseErr e = s.lost (statusError e) := by simp [State.raiseErr, h, State.redrawObuf, State.lost]

end Sys2Proof.Machine
end

