-- ==== Sys2Proof/Laws/Ops.lean ====
section
/-! SUPPORT. For each shared operation, one lemma that says all it can do: `emit` and sequences of it (spec/40 R118), the
block's reads of IBUF (spec/20 R58), `flush` (spec/41 R133), and the steps of the machine (spec/40 R110). -/

namespace Sys2Proof.Machine

/-! ### emit -/

@[simp] theorem statusError_outOverflow : statusError .outOverflow = 0x42#32 := by decide
@[simp] theorem statusError_corruptData : statusError .corruptData = 0x12#32 := by decide
@[simp] theorem statusError_illegalCmd : statusError .illegalCmd = 0x22#32 := by decide
@[simp] theorem statusError_lenRange : statusError .lenRange = 0x32#32 := by decide

/-- Bytes that fit are stored from `o` on and counted. -/
theorem State.emitAll_fits (bs : List Byte) (s : State) (h : s.o + bs.length ≤ s.platform.outCap) :
    s.emitAll bs = .ok { s with obuf := s.obuf.writeFrom s.o bs, o := s.o + bs.length } := by
  induction bs generalizing s with
  | nil => rfl
  | cons b bs ih =>
    simp only [List.length_cons] at h
    have hlt : ¬ s.platform.outCap ≤ s.o := by omega
    rw [State.emitAll, State.emit, if_neg hlt]
    simp only [Except.bind]
    rw [ih _ (by simp only; omega)]
    simp only [Memory.writeFrom, List.length_cons]
    congr 2
    omega

/-- Bytes that do not all fit end the command with OUT_OVERFLOW, whatever was stored before. -/
theorem State.emitAll_overflows (bs : List Byte) (s : State) (hne : bs ≠ [])
    (h : s.platform.outCap < s.o + bs.length) :
    s.emitAll bs = .error { s.lost 0x42#32 with o := max s.o s.platform.outCap } := by
  induction bs generalizing s with
  | nil => exact absurd rfl hne
  | cons b bs ih =>
    rw [State.emitAll, State.emit]
    split
    · next hle =>
      simp only [Except.bind, s.raiseErr_eq_lost .outOverflow rfl, statusError_outOverflow]
      rw [Nat.max_eq_left hle]
      rfl
    · next hlt =>
      simp only [Except.bind]
      rw [ih _ (by rintro rfl; simp at h; omega) (by simp only [List.length_cons] at h ⊢; omega)]
      simp only [State.lost, Except.error.injEq]
      congr 1
      omega

/-- What `emit` of a sequence can do. -/
theorem State.emitAll_cases (bs : List Byte) (s : State) :
    (s.emitAll bs = .ok { s with obuf := s.obuf.writeFrom s.o bs, o := s.o + bs.length } ∧
      (bs = [] ∨ s.o + bs.length ≤ s.platform.outCap)) ∨
    (s.emitAll bs = .error { s.lost 0x42#32 with o := max s.o s.platform.outCap } ∧
      s.platform.outCap < s.o + bs.length) := by
  by_cases h : s.o + bs.length ≤ s.platform.outCap
  · exact .inl ⟨s.emitAll_fits bs h, .inr h⟩
  · by_cases hb : bs = []
    · subst hb; exact .inl ⟨rfl, .inl rfl⟩
    · exact .inr ⟨s.emitAll_overflows bs hb (by omega), by omega⟩

theorem State.emitAll_append (bs cs : List Byte) (s : State) :
    s.emitAll (bs ++ cs) = (s.emitAll bs).bind fun t => t.emitAll cs := by
  induction bs generalizing s with
  | nil => rfl
  | cons b bs ih =>
    simp only [List.cons_append, State.emitAll]
    cases s.emit b with
    | error t => rfl
    | ok t => simp only [Except.bind, ih]

/-- Storing a sequence from `a` on writes it there and nothing else. -/
theorem writesAt_of_writeFrom {s t : State} {a : Nat} {bs : List Byte} (h : t.obuf = s.obuf.writeFrom a bs)
    (hd : t.obufDraw = s.obufDraw) : WritesAt s t a bs := by
  refine ⟨fun j b hj => ?_, fun k hk => ?_⟩
  · have hlt : j < bs.length := by
      rcases Nat.lt_or_ge j bs.length with h | h
      · exact h
      · simp [List.getElem?_eq_none h] at hj
    rw [State.obufByte, h, Memory.read?_writeFrom, if_pos (by omega), show a + j - a = j by omega, hj]
    rfl
  · rw [State.obufByte, h, Memory.read?_writeFrom, if_neg (by omega), hd]
    rfl

@[simp] theorem endStep_ok (s : State) : endStep (.ok s) = .next s := rfl
@[simp] theorem endStep_error (s : State) : endStep (.error s) = .next s := rfl
@[simp] theorem Progress.map_ok (f : State → State) (s : State) : (Except.ok s : Progress).map f = .ok (f s) := rfl
@[simp] theorem Progress.map_error (f : State → State) (s : State) : (Except.error s : Progress).map f = .error s := rfl
@[simp] theorem Progress.bind_ok (f : State → Progress) (s : State) : (Except.ok s : Progress).bind f = f s := rfl
@[simp] theorem Progress.bind_error (f : State → Progress) (s : State) :
    (Except.error s : Progress).bind f = .error s := rfl

/-! ### The block's reads of IBUF -/

theorem State.input?_inside {s : State} {k : Nat} (hk : k < s.n.toNat) (hn : s.inputFits) :
    s.input? k = some (s.ibufByte k) := by simp [State.input?, hk, hn]

theorem State.inputRange?_inside {s : State} {a k : Nat} (hk : a + k ≤ s.n.toNat) (hn : s.inputFits) :
    s.inputRange? a k = some ((List.range' a k).map s.ibufByte) := by
  induction k generalizing a with
  | zero => rfl
  | succ k ih =>
    simp only [State.inputRange?, State.input?_inside (show a < s.n.toNat by omega) hn,
      ih (show a + 1 + k ≤ s.n.toNat by omega), List.range'_succ, List.map_cons]

/-- Reading a range answers its bytes or nothing. -/
theorem State.inputRange?_length {s : State} {a k : Nat} {bs : List Byte} (h : s.inputRange? a k = some bs) :
    bs.length = k := by
  induction k generalizing a bs with
  | zero => simp [State.inputRange?] at h; simp [← h]
  | succ k ih =>
    simp only [State.inputRange?] at h
    split at h
    · next hb => cases h; simp [ih hb]
    · cases h

@[simp] theorem State.inputSeq_length (s : State) : s.inputSeq.length = s.n.toNat := by simp [State.inputSeq]

theorem State.inputSeq_get? (s : State) (k : Nat) :
    s.inputSeq[k]? = if k < s.n.toNat then some (s.ibufByte k) else none := by
  simp only [State.inputSeq, List.getElem?_map]
  split <;> simp_all

/-- The block's reads are reads of the input sequence. -/
theorem State.input?_eq_inputSeq {s : State} (hn : s.inputFits) (k : Nat) : s.input? k = s.inputSeq[k]? := by
  rw [State.inputSeq_get?]
  simp [State.input?, hn]

/-! ### flush -/

/-- `flush` emits the pending literal chunk and empties the buffer. -/
theorem State.flush_eq (s : State) :
    s.flush = (s.emitAll (Codec.lits s.lit)).map fun t => { t with lit := [] } := by
  unfold State.flush Codec.lits
  split
  · next h =>
    simp only [State.emitAll, Progress.map_ok, Except.ok.injEq]
    cases s
    simp_all
  · rfl

/-! ### The steps of the machine -/

theorem step_host {s : State} {op : HostOp} {rest : List Event} (h : s.schedule = .host op :: rest) :
    step s = hostAccess op { s with schedule := rest } := by simp [step, nextAction, h, perform]

theorem step_poll {s : State} {rest : List Event} (h : s.schedule = .poll :: rest) :
    step s = .next (pollStatus { s with schedule := rest }) := by simp [step, nextAction, h, perform]

theorem step_reset {s : State} {rest : List Event} (h : s.schedule = .reset :: rest) :
    step s = .next (State.assertReset { s with schedule := rest }) := by simp [step, nextAction, h, perform]

theorem step_blockTurn {s : State} {rest : List Event} (h : s.schedule = .blockTurn :: rest) :
    step s = perform (blockAction { s with schedule := rest }) := by simp [step, nextAction, h]

theorem step_unscheduled {s : State} (h : s.schedule = []) : step s = perform (blockAction s) := by
  simp [step, nextAction, h]

/-- A host access while the block is busy changes only what the host has read and the count of draws. -/
theorem hostAccess_busy {op : HostOp} {s t : State} (hb : s.busy = true) (h : hostAccess op s = .next t) :
    t = { s with received := t.received, draws := t.draws } := by
  have hw : ∀ loc v, hostWrite loc v s = s := fun loc v => by cases loc <;> simp [hostWrite, hb]
  cases op <;> simp only [hostAccess] at h <;> split at h <;> cases h <;> simp [hw, hostRead]

/-- A read of `POLL` changes only what the host has read and the schedule. -/
theorem pollStatus_frame (s : State) :
    pollStatus s = { s with received := (pollStatus s).received, schedule := (pollStatus s).schedule } := by
  simp only [pollStatus, hostRead, readIsFree]
  split <;> rfl

theorem perform_idle {s : State} (h : s.busy = false) : perform (blockAction s) = .next s := by
  simp [blockAction, h, perform]

theorem perform_check {s : State} (h : s.busy = true) (hp : s.phase = .check) :
    perform (blockAction s) = .next (checkStep s) := by simp [blockAction, h, hp, perform]

theorem perform_run {s : State} {i : Instr} (h : s.busy = true) (hp : s.phase = .run) (hi : s.nextInstr = .ok i) :
    perform (blockAction s) = exec i s := by simp [blockAction, h, hp, hi, perform]

/-- What the block's turn can be. -/
theorem perform_cases (s : State) :
    (s.busy = false ∧ perform (blockAction s) = .next s) ∨
    (s.busy = true ∧ s.phase = .check ∧ perform (blockAction s) = .next (checkStep s)) ∨
    (s.busy = true ∧ s.phase = .run ∧ ∃ i, s.nextInstr = .ok i ∧ perform (blockAction s) = exec i s) ∨
    (s.busy = true ∧ s.phase = .run ∧ ∃ f, s.nextInstr = .error f ∧ perform (blockAction s) = .fault f) := by
  cases hb : s.busy with
  | false => exact .inl ⟨rfl, perform_idle hb⟩
  | true =>
    cases hp : s.phase with
    | check => exact .inr (.inl ⟨rfl, rfl, perform_check hb hp⟩)
    | run =>
      cases hi : s.nextInstr with
      | ok i => exact .inr (.inr (.inl ⟨rfl, rfl, i, rfl, perform_run hb hp hi⟩))
      | error f => exact .inr (.inr (.inr ⟨rfl, rfl, f, rfl, by simp [blockAction, hb, hp, hi, perform]⟩))

/-- What the CHECK step can be (spec/40 R117). -/
theorem checkStep_cases (s : State) :
    (decodeCommand s.op = .error (.illegalCommand s.op) ∧ checkStep s = s.raiseErr .illegalCmd) ∨
    ((∃ i, decodeCommand s.op = .ok i) ∧ isCodecCommand s.op = true ∧ s.platform.inCap < s.n.toNat ∧
      checkStep s = s.raiseErr .lenRange) ∨
    ((∃ i, decodeCommand s.op = .ok i) ∧ (isCodecCommand s.op = true → s.inputFits) ∧
      checkStep s = { s with phase := .run }) := by
  unfold checkStep
  cases hd : decodeCommand s.op with
  | error e =>
    left
    refine ⟨?_, rfl⟩
    unfold decodeCommand at hd
    split at hd <;> try contradiction
    split at hd <;> try contradiction
    split at hd <;> try contradiction
    split at hd <;> try contradiction
    exact hd.symm
  | ok i =>
    right
    simp only
    split
    · next h => exact .inl ⟨⟨i, rfl⟩, h.1, h.2, rfl⟩
    · next h =>
      refine .inr ⟨⟨i, rfl⟩, fun hc => ?_, rfl⟩
      simp only [hc, true_and, Nat.not_lt] at h
      exact h

end Sys2Proof.Machine
end

