-- ==== Sys2Proof/Laws/Exec.lean ====
section
/-! SUPPORT. What each instruction can do, said once: the outcomes of its RUN step as explicit states. -/

namespace Sys2Proof.Machine

/-! ### Shapes of the outcomes -/

/-- `s` after the bytes `bs` have been emitted. -/
def State.emitted (s : State) (bs : List Byte) : State :=
  { s with obuf := s.obuf.writeFrom s.o bs, o := s.o + bs.length }

/-- `s` after OUT_OVERFLOW. -/
def State.overflowed (s : State) : State := { s.lost 0x42#32 with o := max s.o s.platform.outCap }

/-- `emit` of a sequence stores it all or overflows. -/
theorem State.emitAll_eq (bs : List Byte) (s : State) :
    s.emitAll bs = if bs = [] ∨ s.o + bs.length ≤ s.platform.outCap then .ok (s.emitted bs) else .error s.overflowed := by
  rcases s.emitAll_cases bs with ⟨he, h⟩ | ⟨he, h⟩
  · rw [if_pos h, he]; rfl
  · split
    · next hc =>
      rcases hc with rfl | hc
      · simp only [State.emitAll] at he; cases he
      · omega
    · exact he

/-- A sequence fits what is left of OBUF, or there is nothing to store. -/
abbrev State.fits (s : State) (bs : List Byte) : Prop := bs = [] ∨ s.o + bs.length ≤ s.platform.outCap

@[simp] theorem Codec.lits_eq_nil (l : List Byte) : Codec.lits l = [] ↔ l = [] := by
  unfold Codec.lits; split <;> simp_all

theorem Codec.lits_length (l : List Byte) : (Codec.lits l).length = if l = [] then 0 else l.length + 1 := by
  unfold Codec.lits; split <;> simp

/-! ### The decoder's instructions -/

/-- LIT, in all states. -/
theorem execLit_eq (c : Int) (s : State) :
    execLit c s =
      if s.n.toNat < s.p + 1 + litCount c then .next (s.lost 0x12#32)
      else match s.inputRange? (s.p + 1) (litCount c) with
        | none => .fault .ibufRange
        | some bs => .next (if s.fits bs then { s.emitted bs with p := s.p + 1 + litCount c } else s.overflowed) := by
  unfold execLit
  split
  · rw [s.raiseErr_eq_lost .corruptData rfl, statusError_corruptData]
  · cases s.inputRange? (s.p + 1) (litCount c) with
    | none => rfl
    | some _ =>
      simp only
      rw [State.emitAll_eq]
      split <;> rfl

/-- REP, in all states. -/
theorem execRep_eq (c : Int) (s : State) :
    execRep c s =
      if s.n.toNat < s.p + 2 then .next (s.lost 0x12#32)
      else match s.input? (s.p + 1) with
        | none => .fault .ibufRange
        | some v => .next (if s.fits (List.replicate (repCount c) v)
            then { s.emitted (List.replicate (repCount c) v) with p := s.p + 2 } else s.overflowed) := by
  unfold execRep
  split
  · rw [s.raiseErr_eq_lost .corruptData rfl, statusError_corruptData]
  · cases s.input? (s.p + 1) with
    | none => rfl
    | some _ =>
      simp only
      rw [State.emitAll_eq]
      split <;> rfl

/-- DECODE executes the instruction of the control byte at `p`. -/
theorem execDecode_eq (s : State) :
    execDecode s =
      if s.p = s.n.toNat then .next s.complete
      else match s.input? s.p with
        | none => .fault .ibufRange
        | some b => exec (decodeControl b) s := by
  unfold execDecode
  split
  · rfl
  · cases s.input? s.p with
    | none => rfl
    | some _ =>
      simp only [decodeControl]
      split
      · rfl
      · split <;> rfl

/-! ### The encoder -/

/-- `runLength` looks only at the input and the cursor. -/
theorem State.runLength_congr {s t : State} (hp : t.platform = s.platform) (hn : t.n = s.n) (hi : t.i = s.i)
    (h : t.ibuf = s.ibuf) (hd : t.ibufDraw = s.ibufDraw) (v : Byte) : t.runLength v = s.runLength v := by
  have hscan : ∀ f L, t.scanRun v f L = s.scanRun v f L := by
    intro f
    induction f with
    | zero => intro L; rfl
    | succ f ih =>
      intro L
      simp only [State.scanRun, hi, hn, State.input?_congr hp hn h hd, ih]
  exact hscan 126 2

/-- The last-byte case: the literals with the last byte are emitted and the buffer is empty, or the step overflows. -/
theorem State.encodeLast_eq (s : State) (v : Byte) :
    s.encodeLast v =
      if s.fits (Codec.lits (s.lit ++ [v]))
      then .ok { s.emitted (Codec.lits (s.lit ++ [v])) with i := s.i + 1, lit := [] }
      else .error { s.overflowed with lit := s.lit ++ [v] } := by
  simp only [State.encodeLast, State.flush_eq, State.emitAll_eq]
  split <;> rfl

/-- The different case: the byte joins the literals, which are emitted when they are 127. -/
theorem State.encodeDifferent_eq (s : State) (v : Byte) :
    s.encodeDifferent v =
      if s.lit.length + 1 = 127 then
        if s.fits (Codec.lits (s.lit ++ [v]))
        then .ok { s.emitted (Codec.lits (s.lit ++ [v])) with i := s.i + 1, lit := [] }
        else .error { s.overflowed with lit := s.lit ++ [v] }
      else .ok { s with i := s.i + 1, lit := s.lit ++ [v] } := by
  simp only [State.encodeDifferent, List.length_append, List.length_singleton]
  split
  · simp only [State.flush_eq, State.emitAll_eq]
    split <;> rfl
  · rfl

/-- The bytes of the equal case: the pending literals, then the repeat chunk. -/
def State.runBytes (s : State) (v : Byte) : List Byte := Codec.lits s.lit ++ [repControl (s.runLength v), v]

/-- The equal case: the bytes are emitted, or the step overflows. -/
theorem State.encodeEqual_cases (s : State) (v : Byte) :
    (s.o + (s.runBytes v).length ≤ s.platform.outCap ∧
      s.encodeEqual v = .ok { s.emitted (s.runBytes v) with i := s.i + s.runLength v, lit := [] }) ∨
    (s.platform.outCap < s.o + (s.runBytes v).length ∧
      ∃ l, s.encodeEqual v = .error { s.overflowed with lit := l }) := by
  have hlen : (s.runBytes v).length = (Codec.lits s.lit).length + 2 := by simp [State.runBytes]
  simp only [State.encodeEqual, State.flush_eq, State.emitAll_eq]
  by_cases hf : s.fits (Codec.lits s.lit)
  · rw [if_pos hf]
    simp only [Progress.map_ok, Progress.bind_ok]
    have hr : ({ s.emitted (Codec.lits s.lit) with lit := [] } : State).runLength v = s.runLength v :=
      State.runLength_congr rfl rfl rfl rfl rfl v
    rw [hr]
    by_cases h2 : s.o + (s.runBytes v).length ≤ s.platform.outCap
    · left
      refine ⟨h2, ?_⟩
      rw [if_pos (.inr (by simp only [State.emitted, List.length_cons, List.length_nil]; omega))]
      simp only [Progress.map_ok, State.emitted, State.runBytes, Memory.writeFrom_append,
        List.length_append, Nat.add_assoc]
    · right
      refine ⟨by omega, [], ?_⟩
      rw [if_neg (by
        simp only [State.emitted, List.length_cons, List.length_nil, List.cons_ne_nil, false_or]
        omega)]
      simp only [Progress.map_error, Except.error.injEq, State.overflowed, State.lost, State.emitted]
      congr 1
      rcases hf with hf | hf
      · simp [hf]
      · omega
  · rw [if_neg hf]
    right
    have hne : s.lit ≠ [] := fun h => hf (.inl (by simp [h]))
    have : ¬ s.o + (Codec.lits s.lit).length ≤ s.platform.outCap := fun h => hf (.inr h)
    exact ⟨by omega, s.lit, rfl⟩

/-! ### Any instruction -/

/-- What a RUN step can leave: the command runs on after emitting some bytes that fit; it completes, with a new CONV_OUT
only for the converter commands; or it ends with CORRUPT_DATA or OUT_OVERFLOW. -/
inductive RunStep (i : Instr) (s : State) : State → Prop
  | goesOn (bs l : List Byte) (i' p' : Nat) (hf : s.fits bs) (hi : s.i ≤ i') (hp : s.p ≤ p') :
      RunStep i s { s.emitted bs with i := i', lit := l, p := p' }
  | completes (v : Word)
      (hv : v = s.convOut ∨ (i = .toU8 ∨ i = .toS8) ∧ ∃ b : Byte, v = b.setWidth 32 ∨ v = b.signExtend 32) :
      RunStep i s ({ s with convOut := v } : State).complete
  | ends (w : Word) (o' : Nat) (l : List Byte) (hw : w = 0x12#32 ∨ w = 0x42#32)
      (ho : o' = s.o ∨ o' = max s.o s.platform.outCap) : RunStep i s { s.lost w with o := o', lit := l }

theorem execNop_runStep (i : Instr) (s : State) : RunStep i s { s with p := s.p + 1 } :=
  .goesOn [] s.lit s.i (s.p + 1) (.inl rfl) (Nat.le_refl _) (Nat.le_succ _)

theorem State.lost_runStep (i : Instr) (s : State) : RunStep i s (s.lost 0x12#32) :=
  .ends 0x12#32 s.o s.lit (.inl rfl) (.inl rfl)

theorem State.overflowed_runStep (i : Instr) (s : State) (l : List Byte) :
    RunStep i s { s.overflowed with lit := l } :=
  .ends 0x42#32 (max s.o s.platform.outCap) l (.inr rfl) (.inr rfl)

theorem execLit_runStep {c : Int} {i : Instr} {s t : State} (h : execLit c s = .next t) : RunStep i s t := by
  rw [execLit_eq] at h
  split at h
  · cases h; exact s.lost_runStep i
  · split at h
    · cases h
    · next bs _ =>
      cases h
      split
      · next hf => exact .goesOn bs s.lit s.i _ hf (Nat.le_refl _) (by omega)
      · exact s.overflowed_runStep i s.lit

theorem execRep_runStep {c : Int} {i : Instr} {s t : State} (h : execRep c s = .next t) : RunStep i s t := by
  rw [execRep_eq] at h
  split at h
  · cases h; exact s.lost_runStep i
  · split at h
    · cases h
    · next v _ =>
      cases h
      split
      · next hf => exact .goesOn _ s.lit s.i _ hf (Nat.le_refl _) (by omega)
      · exact s.overflowed_runStep i s.lit

theorem State.complete_runStep (i : Instr) (s : State) : RunStep i s s.complete := .completes s.convOut (.inl rfl)

theorem execEncode_runStep {i : Instr} {s t : State} (h : execEncode s = .next t) : RunStep i s t := by
  unfold execEncode at h
  split at h
  · cases h; exact s.complete_runStep i
  · split at h
    · cases h
    · next v _ =>
      split at h
      · rw [State.encodeLast_eq] at h
        split at h
        · next hf => cases h; exact .goesOn _ [] _ s.p hf (Nat.le_succ _) (Nat.le_refl _)
        · cases h; exact s.overflowed_runStep i _
      · split at h
        · cases h
        · split at h
          · rw [State.encodeDifferent_eq] at h
            split at h
            · split at h
              · next hf => cases h; exact .goesOn _ [] _ s.p hf (Nat.le_succ _) (Nat.le_refl _)
              · cases h; exact s.overflowed_runStep i _
            · cases h; exact .goesOn [] _ _ s.p (.inl rfl) (Nat.le_succ _) (Nat.le_refl _)
          · rcases s.encodeEqual_cases v with ⟨hf, he⟩ | ⟨_, l, he⟩
            · rw [he] at h; cases h; exact .goesOn _ [] _ s.p (.inr hf) (Nat.le_add_right _ _) (Nat.le_refl _)
            · rw [he] at h; cases h; exact s.overflowed_runStep i l

/-- The decoder's stream instructions, by the control byte. -/
theorem exec_decodeControl_runStep {b : Byte} {i : Instr} {s t : State} (h : exec (decodeControl b) s = .next t) :
    RunStep i s t := by
  unfold decodeControl at h
  split at h
  · cases h; exact execNop_runStep i s
  · split at h
    · exact execLit_runStep h
    · exact execRep_runStep h

/-- Every instruction that answers a next state leaves one of the shapes of `RunStep`. -/
theorem exec_runStep {i : Instr} {s t : State} (h : exec i s = .next t) : RunStep i s t := by
  cases i with
  | lit c => exact execLit_runStep h
  | rep c => exact execRep_runStep h
  | nop => cases h; exact execNop_runStep _ s
  | encode => exact execEncode_runStep h
  | decode =>
    change execDecode s = .next t at h
    rw [execDecode_eq] at h
    split at h
    · cases h; exact s.complete_runStep _
    · split at h
      · cases h
      · exact exec_decodeControl_runStep h
  | toU8 => cases h; exact .completes _ (.inr ⟨.inl rfl, _, .inl rfl⟩)
  | toS8 => cases h; exact .completes _ (.inr ⟨.inr rfl, _, .inr rfl⟩)

end Sys2Proof.Machine
end

