-- ==== Sys2Proof/Laws/PerInstr.lean ====
section
/-! SUPPORT. Statements made of every instruction, proved constructor by constructor. -/

namespace Sys2Proof.Laws

/-- The width of an instruction's format and its bits, numbered as spec/opcode_table.json numbers them. -/
def tableWord : InstrWord → Nat × Nat
  | .control b => (8, b.toNat)
  | .command w => (32, w.toNat)

/-- The bits of a well-formed instruction's encoding match the row of the opcode table that bears its mnemonic, and the
row's decoding of those bits is the instruction. -/
def TableRow.Statement (i : Instr) : Prop :=
  i.wf = true → ∃ r ∈ opcodeTable, r.mnemonic = mnemonic i ∧ r.nbits = (tableWord (encode i)).1 ∧
    rowMatches r (tableWord (encode i)).2 = true ∧ decodeTableWord r.nbits (tableWord (encode i)).2 = some i

/-- Every operand of LIT is the value of a control byte of at most 0x7F. -/
theorem lit_operand {c : Int} (h : (Instr.lit c).wf = true) : ∃ m : Fin 128, c = (m.val : Int) := by
  simp only [Instr.wf, Bool.and_eq_true, decide_eq_true_eq] at h
  exact ⟨⟨c.toNat, by omega⟩, by simp only; omega⟩

/-- Every operand of REP is the value of a control byte of at least 0x81. -/
theorem rep_operand {c : Int} (h : (Instr.rep c).wf = true) : ∃ m : Fin 127, c = (m.val : Int) - 127 := by
  simp only [Instr.wf, Bool.and_eq_true, decide_eq_true_eq] at h
  exact ⟨⟨(c + 127).toNat, by omega⟩, by simp only; omega⟩

/-- LIT's row reads every control byte of at most 0x7F as that LIT. -/
theorem lit_row : ∀ m : Fin 128,
    rowMatches opcodeTable[0] (toUnsigned8 (m.val : Int)).toNat = true ∧
    decodeTableWord 8 (toUnsigned8 (m.val : Int)).toNat = some (.lit (m.val : Int)) := by
  decide

/-- REP's row reads every control byte of at least 0x81 as that REP. -/
theorem rep_row : ∀ m : Fin 127,
    rowMatches opcodeTable[1] (toUnsigned8 ((m.val : Int) - 127)).toNat = true ∧
    decodeTableWord 8 (toUnsigned8 ((m.val : Int) - 127)).toNat = some (.rep ((m.val : Int) - 127)) := by
  decide

theorem TableRow.lit (c : Int) : TableRow.Statement (.lit c) := by
  intro h
  obtain ⟨m, rfl⟩ := lit_operand h
  exact ⟨opcodeTable[0], by decide, rfl, rfl, (lit_row m).1, (lit_row m).2⟩

theorem TableRow.rep (c : Int) : TableRow.Statement (.rep c) := by
  intro h
  obtain ⟨m, rfl⟩ := rep_operand h
  exact ⟨opcodeTable[1], by decide, rfl, rfl, (rep_row m).1, (rep_row m).2⟩

theorem TableRow.nop : TableRow.Statement .nop :=
  fun _ => ⟨opcodeTable[2], by decide, rfl, rfl, by decide, by decide⟩

theorem TableRow.encode : TableRow.Statement .encode :=
  fun _ => ⟨opcodeTable[3], by decide, rfl, rfl, by decide, by decide⟩

theorem TableRow.decode : TableRow.Statement .decode :=
  fun _ => ⟨opcodeTable[4], by decide, rfl, rfl, by decide, by decide⟩

theorem TableRow.toU8 : TableRow.Statement .toU8 :=
  fun _ => ⟨opcodeTable[5], by decide, rfl, rfl, by decide, by decide⟩

theorem TableRow.toS8 : TableRow.Statement .toS8 :=
  fun _ => ⟨opcodeTable[6], by decide, rfl, rfl, by decide, by decide⟩

end Sys2Proof.Laws
end

