-- ==== Sys2Proof/Tests/Slice0.lean ====
section
/-! SUPPORT. The model's own tests: the well-formedness checks, decoding from words written out from the spec's
encodings, one-step tests with values of spec/95, and a witness for the hypotheses of each obligation. -/

namespace Sys2Proof.Tests

open Sys2Proof.Machine

/-! ### Helpers -/

/-- The reference platform with these capacities. -/
def plat (inCap outCap : Nat) : Platform := { Platform.reference with inCap := inCap, outCap := outCap }

/-- An idle state: reset on a platform, then these bytes in IBUF and their number in IN_LEN. -/
def idle (P : Platform) (bytes : List Byte) : State :=
  { State.resetFor P with ibuf := Memory.writeFrom [] 0 bytes, inLen := BitVec.ofNat 32 bytes.length }

/-- The idle state after the host's write of CMD. -/
def accepted (w : Word) (P : Platform) (bytes : List Byte) : State := (idle P bytes).accept w

/-- The accepted command past its CHECK step. -/
def running (w : Word) (P : Platform) (bytes : List Byte) : State := { accepted w P bytes with phase := .run }

/-- The idle state with these events to come. -/
def scheduled (P : Platform) (bytes : List Byte) (events : List Event) : State :=
  { idle P bytes with schedule := events }

/-- A step went on, to a state of which this holds. -/
def nextIs (r : Host.Outcome State Fault Refusal) (f : State → Bool) : Bool :=
  match r with
  | .next t => f t
  | .fault _ => false
  | .refused _ => false

/-- A step was refused, for this reason. -/
def refusedIs (r : Host.Outcome State Fault Refusal) (e : Refusal) : Bool :=
  match r with
  | .next _ => false
  | .fault _ => false
  | .refused e' => e' = e

/-! ### Well-formedness: each check refuses an ill-formed term -/

theorem test_wf_lit_above : (Instr.lit 128).wf = false := by decide
theorem test_wf_lit_below : (Instr.lit (-1)).wf = false := by decide
theorem test_wf_rep_above : (Instr.rep 0).wf = false := by decide
theorem test_wf_rep_below : (Instr.rep (-128)).wf = false := by decide
set_option maxRecDepth 4096 in
theorem test_wf_chunk : Chunk.wf (.lit []) = false ∧ Chunk.wf (.lit (List.replicate 129 0)) = false ∧
    Chunk.wf (.rep 1 0) = false ∧ Chunk.wf (.rep 129 0) = false := by decide
theorem test_wf_platform_capacity : ¬ (plat 0 1).wf ∧ ¬ (plat 1 0).wf ∧ ¬ (plat (2 ^ 32) 1).wf := by decide
theorem test_wf_platform_overlap : ¬ ({ plat 1 1 with ibufBase := 0x17 } : Platform).wf := by decide
theorem test_wf_memory : ¬ Memory.wf [(1, 0), (1, 0)] ∧ ¬ Memory.wf [(2, 0), (1, 0)] := by decide

/-! ### Decoding: words written out bit by bit (spec/30 R80, R92, spec/opcode_table.json) -/

theorem test_decode_lit : decodeTableWord 8 0b00000101 = some (.lit 5) := by decide
theorem test_decode_lit_longest : decodeTableWord 8 0b01111111 = some (.lit 127) := by decide
theorem test_decode_rep_longest : decodeTableWord 8 0b10000001 = some (.rep (-127)) := by decide
theorem test_decode_rep_shortest : decodeTableWord 8 0b11111111 = some (.rep (-1)) := by decide
theorem test_decode_nop : decodeTableWord 8 0b10000000 = some .nop := by decide
theorem test_decode_encode : decodeTableWord 32 0b00000000000000000000000000000001 = some .encode := by decide
theorem test_decode_decode : decodeTableWord 32 0b00000000000000000000000000000010 = some .decode := by decide
theorem test_decode_toU8 : decodeTableWord 32 0b00000000000000000000000000000011 = some .toU8 := by decide
theorem test_decode_toS8 : decodeTableWord 32 0b00000000000000000000000000000100 = some .toS8 := by decide
/-- spec/95 K2, K3, K4: no command. -/
theorem test_decode_illegal : decodeTableWord 32 0 = none ∧ decodeTableWord 32 5 = none ∧
    decodeTableWord 32 0x101 = none := by decide

/-! ### One step of each instruction -/

/-- spec/95 X3. -/
theorem test_lit_copies :
    nextIs (step (running codeDecode (plat 256 256) [0x02, 1, 2, 3]))
      (fun t => t.obuf = [(0, 1), (1, 2), (2, 3)] ∧ t.p = 4 ∧ t.o = 3 ∧ t.busy) = true := by decide

/-- spec/95 X24: the truncation check precedes the first emit. -/
theorem test_lit_truncated :
    nextIs (exec (.lit 2) { running codeDecode (plat 256 1) [0x00, 1, 0x02, 1, 2] with p := 2, o := 1 })
      (fun t => t.status = 0x12 ∧ t.outLen = 0 ∧ t.obuf = []) = true := by decide

set_option maxRecDepth 4096 in
/-- spec/95 X9. -/
theorem test_rep_longest :
    nextIs (step (running codeDecode (plat 256 256) [0x81, 7]))
      (fun t => t.obuf.read? 127 = some 7 ∧ t.p = 2 ∧ t.o = 128) = true := by decide

/-- spec/95 X14. -/
theorem test_rep_truncated :
    nextIs (step (running codeDecode (plat 256 256) [0xFF])) (fun t => t.status = 0x12 ∧ t.outLen = 0) = true := by
  decide

/-- spec/95 X1. -/
theorem test_nop_advances :
    nextIs (step (running codeDecode (plat 256 256) [0x80])) (fun t => t.p = 1 ∧ t.o = 0 ∧ t.obuf = [] ∧ t.busy) = true := by
  decide

/-- spec/95 W4. -/
theorem test_encode_run :
    nextIs (step (running codeEncode (plat 256 256) [5, 5, 5, 5]))
      (fun t => t.obuf = [(0, 0xFD), (1, 5)] ∧ t.i = 4 ∧ t.o = 2) = true := by decide

/-- spec/95 E31. -/
theorem test_encode_overflows :
    nextIs (step (running codeEncode (plat 256 1) [5, 5, 5, 5]))
      (fun t => t.status = 0x42 ∧ t.outLen = 0 ∧ t.obuf = []) = true := by decide

/-- spec/95 W2: the empty stream. -/
theorem test_decode_completes_empty :
    nextIs (step (running codeDecode (plat 256 256) [])) (fun t => t.status = 0x02 ∧ t.outLen = 0) = true := by decide

/-- spec/95 X18. -/
theorem test_decode_overflows :
    nextIs (exec .decode (running codeDecode (plat 256 3) [0xFD, 5]))
      (fun t => t.status = 0x42 ∧ t.outLen = 0) = true := by decide

/-- spec/95 section 2.1. -/
theorem test_toU8_negative :
    nextIs (step { running codeToU8 (plat 1 1) [] with convIn := 0xFFFFFF81 })
      (fun t => t.convOut = 0x00000081 ∧ t.status = 0x02) = true := by decide
theorem test_toU8_ignores_high_bits :
    nextIs (step { running codeToU8 (plat 1 1) [] with convIn := 0x80000080 }) (fun t => t.convOut = 0x80) = true := by
  decide
theorem test_toS8_least :
    nextIs (step { running codeToS8 (plat 1 1) [] with convIn := 0x00000080 })
      (fun t => t.convOut = 0xFFFFFF80 ∧ t.status = 0x02) = true := by decide
theorem test_toS8_ignores_high_bits :
    nextIs (step { running codeToS8 (plat 1 1) [] with convIn := 0x000001FD }) (fun t => t.convOut = 0xFFFFFFFD) = true := by
  decide

/-! ### The host and the pure functions -/

/-- spec/95 K10. -/
theorem test_status_reads_busy :
    nextIs (step { accepted codeEncode (plat 1 1) [7] with schedule := [.host (.read .reg 0x04 32)] })
      (fun t => t.received = [.word 1]) = true := by decide

/-- spec/95 K4, the CHECK step. -/
theorem test_check_illegal :
    nextIs (step (accepted 0x101 (plat 1 1) [])) (fun t => t.status = 0x22 ∧ t.outLen = 0) = true := by decide

/-- spec/95 E33, the CHECK step. -/
theorem test_check_length :
    nextIs (step (accepted codeEncode (plat 1 1) [1, 2])) (fun t => t.status = 0x32 ∧ t.outLen = 0) = true := by decide

/-- spec/20 R53: a byte access of a register. -/
theorem test_byte_access_of_register_refused :
    refusedIs (step (scheduled (plat 1 1) [] [.host (.read .reg 0x04 8)])) .registerWidth = true := by decide

set_option maxRecDepth 4096 in
/-- spec/95 W5, E26. -/
theorem test_pure_encode :
    Codec.encode [1, 2, 2, 2, 9] = [0x00, 1, 0xFE, 2, 0x00, 9] ∧
    Codec.encode (List.replicate 129 9 ++ [1]) = [0x81, 9, 0x01, 9, 1] := by decide

/-- spec/95 X11, X15. -/
theorem test_pure_decode :
    Codec.decode [0x80, 0x02, 0x0A, 0x0B, 0x0C, 0x80, 0xFD, 5, 0x80] = .ok [0x0A, 0x0B, 0x0C, 5, 5, 5, 5] ∧
    Codec.decode [0x01, 5, 6, 0xFE] = .corruptData := by decide

/-! ### The first instruction after reset, by the opcode table's words -/

theorem test_fetch_lit : nextIs (step (State.reset.withFetchWord 8 0x00))
    (fun t => t.p = 2 ∧ t.obuf = [(0, 0)]) = true := by decide
set_option maxRecDepth 4096 in
theorem test_fetch_lit_longest : nextIs (step (State.reset.withFetchWord 8 0x7F))
    (fun t => t.p = 129 ∧ t.o = 128) = true := by decide
theorem test_fetch_rep : nextIs (step (State.reset.withFetchWord 8 0x81))
    (fun t => t.p = 2 ∧ t.o = 128) = true := by decide
theorem test_fetch_nop : nextIs (step (State.reset.withFetchWord 8 0x80)) (fun t => t.p = 1) = true := by decide
theorem test_fetch_encode : nextIs (step (State.reset.withFetchWord 32 1)) (fun t => t.status = 2) = true := by decide
theorem test_fetch_decode : nextIs (step (State.reset.withFetchWord 32 2)) (fun t => t.status = 2) = true := by decide
theorem test_fetch_toU8 : nextIs (step (State.reset.withFetchWord 32 3)) (fun t => t.status = 2) = true := by decide
theorem test_fetch_toS8 : nextIs (step (State.reset.withFetchWord 32 4)) (fun t => t.status = 2) = true := by decide

/-! ### Witnesses: for each obligation with hypotheses, states and operands that meet them, for each clause at a
boundary of its range -/

theorem witness_ControlByteClasses :
    (0x00#8).getLsbD 7 = false ∧ (0x7F#8).getLsbD 7 = false ∧ (0x81#8).getLsbD 7 = true ∧ 0x81#8 ≠ 0x80#8 ∧
    (0xFF#8).getLsbD 7 = true ∧ 0xFF#8 ≠ 0x80#8 := by decide

theorem witness_CommandWordsAreExactlyFour :
    (0x00000000#32 ≠ 1 ∧ 0x00000000#32 ≠ 2 ∧ 0x00000000#32 ≠ 3 ∧ 0x00000000#32 ≠ 4) ∧
    (0x00000005#32 ≠ 1 ∧ 0x00000005#32 ≠ 2 ∧ 0x00000005#32 ≠ 3 ∧ 0x00000005#32 ≠ 4) ∧
    (0xFFFFFFFF#32 ≠ 1 ∧ 0xFFFFFFFF#32 ≠ 2 ∧ 0xFFFFFFFF#32 ≠ 3 ∧ 0xFFFFFFFF#32 ≠ 4) := by decide

theorem witness_DecodeAndEncodeAgree :
    (Instr.lit 0).wf ∧ (Instr.lit 127).wf ∧ (Instr.rep (-1)).wf ∧ (Instr.rep (-127)).wf ∧ Instr.nop.wf ∧
    Instr.encode.wf ∧ Instr.decode.wf ∧ Instr.toU8.wf ∧ Instr.toS8.wf := by decide

theorem witness_DecodeAndEncodeAgree_words :
    decodeWord (.control 0x7F) = .ok (.lit 127) ∧ decodeWord (.control 0x81) = .ok (.rep (-127)) ∧
    decodeWord (.command 4) = .ok .toS8 := ⟨rfl, rfl, rfl⟩

theorem witness_DecoderReadsTheOpcodeTable :
    ∀ r ∈ opcodeTable, ∃ w ∈ [0x00, 0x81, 0x80, 1, 2, 3, 4], rowMatches r w = true := by decide

theorem witness_ConversionsAreExact :
    (-128 : Int) ≤ -128 ∧ (-128 : Int) ≤ 127 ∧ (127 : Int) ≤ 127 ∧ 2 ≤ 128 ∧ 1 ≤ 128 := by decide

set_option maxRecDepth 4096 in
theorem witness_StreamHasOneParse :
    (∀ c ∈ [Chunk.lit (List.replicate 128 0), .lit [0], .rep 2 0, .rep 128 0, .nop], c.wf = true) ∧
    ([0x00, 1, 0x80, 0x02, 7] : List Byte) = streamBytes [.lit [1], .nop] ++ [0x02, 7] := by decide

set_option maxRecDepth 8192 in
theorem witness_EncoderFunctionRecursion :
    0 = ([] : List Byte).length ∧
    (0 + 1 = ([5] : List Byte).length ∧ ([5] : List Byte)[0]? = some 5) ∧
    (([5, 6] : List Byte)[0]? = some 5 ∧ ([5, 6] : List Byte)[0 + 1]? = some 6 ∧ (6 : Byte) ≠ 5 ∧
      (List.replicate 126 (0 : Byte) ++ [5]).length = 127 ∧ (List.replicate 125 (0 : Byte) ++ [5]).length ≠ 127) ∧
    (([5, 5] : List Byte)[0]? = some 5 ∧ ([5, 5] : List Byte)[0 + 1]? = some 5) := by decide

theorem witness_DecoderFunctionRecursion :
    0 = ([] : List Byte).length ∧
    (([0x80] : List Byte)[0]? = some 0x80 ∧ toSigned8 0x80 = -128) ∧
    (([0x00] : List Byte)[0]? = some 0x00 ∧ 0 ≤ toSigned8 0x00 ∧ ((1 : Nat) : Int) = toSigned8 0x00 + 1 ∧
      ([0x00] : List Byte).length < 0 + 1 + 1) ∧
    (([0x00, 5] : List Byte)[0]? = some 0x00 ∧ 0 + 1 + 1 ≤ ([0x00, 5] : List Byte).length) ∧
    (([0x81] : List Byte)[0]? = some 0x81 ∧ toSigned8 0x81 < 0 ∧ toSigned8 0x81 ≠ -128 ∧
      ((128 : Nat) : Int) = -toSigned8 0x81 + 1 ∧ ([0x81] : List Byte).length < 0 + 2) ∧
    (([0x81, 5] : List Byte)[0]? = some 0x81 ∧ ([0x81, 5] : List Byte)[0 + 1]? = some 5) := by decide

set_option maxRecDepth 4096 in
theorem witness_EncoderEmitsOnlyItsChunks :
    Codec.encode [1, 2, 2] = streamBytes ([] ++ .lit [1] :: .rep 2 2 :: []) ∧
    Codec.encode ((List.range 128).map (BitVec.ofNat 8)) =
      streamBytes ([] ++ .lit ((List.range 127).map (BitVec.ofNat 8)) :: .lit [127] :: []) := by decide

/-- A run at the cursor after pending literals: of 2 and of 128 bytes before another byte, and of 129 at the end and before
another byte (spec/95 E26). -/
theorem witness_LongRunsAreSplit :
    (2 ≤ 2 ∧ 2 ≤ 2 % 128 ∧ ([1] : List Byte).head? ≠ some 9) ∧ (2 ≤ 128 ∧ 128 % 128 = 0) ∧
    (2 ≤ 129 ∧ 129 % 128 = 1 ∧ ([] : List Byte).head? ≠ some 9 ∧ ([1] : List Byte) ≠ []) ∧
    ([7, 9, 9, 1] : List Byte) = [7] ++ List.replicate 2 9 ++ [1] := ⟨by decide, by decide, by decide, rfl⟩

theorem witness_NopsBetweenChunksAreTransparent :
    ∀ c ∈ [Chunk.lit [1], .rep 2 5, .nop], c.wf = true := by decide

theorem witness_StepRunsTheDecodedInstruction :
    (let s := running codeDecode (plat 256 256) [0x00, 5]
     s.busy = true ∧ s.phase = .run ∧ s.schedule = [] ∧ s.p < s.n.toNat ∧ s.inputFits) ∧
    (let s := running codeDecode (plat 256 256) []
     s.p = s.n.toNat) ∧
    (let s : State := { running codeToS8 (plat 256 256) [] with schedule := [.blockTurn] }
     s.busy = true ∧ s.phase = .run ∧ s.schedule = [.blockTurn]) := by decide

theorem witness_StepRunsTheDecodedInstruction_decoded :
    decodeWord (.command (running codeDecode (plat 256 256) [0x00, 5]).op) = .ok .decode ∧
    decodeStream ((running codeDecode (plat 256 256) [0x00, 5]).inputSeq.drop 0) = .ok (.lit 0, [5]) ∧
    (running codeDecode (plat 256 256) [0x00, 5]).nextInstr = .ok (.lit 0) ∧
    decodeWord (.command (running codeEncode (plat 256 256) []).op) = .ok .encode ∧
    (running codeToS8 (plat 256 256) []).nextInstr = .ok .toS8 := ⟨rfl, rfl, rfl, rfl, rfl⟩

theorem witness_PlacedInstructionRunsNext :
    State.reset.platform.wf ∧ (idle (plat 1 1) [9]).platform.wf ∧ decodeTableWord 8 0x81 = some (.rep (-127)) ∧
    decodeTableWord 32 4 = some .toS8 := by decide

theorem witness_ResetLeavesRegistersZeroAndBlockIdle :
    ({ accepted codeEncode (plat 4 4) [1, 2] with schedule := [.reset] } : State).schedule = .reset :: [] := rfl

theorem witness_ResetDrawsTheBuffersAnew :
    ({ running codeEncode (plat 4 4) [1, 2] with schedule := [.reset, .poll] } : State).schedule =
      .reset :: [.poll] := rfl

/-- The host's write of a command, on a platform, with these bytes in IBUF. -/
def writesCommand (w : Word) (P : Platform) (bytes : List Byte) : State :=
  scheduled P bytes [.host (.write .reg 0x00 32 w)]

theorem idle_is_idle : statusBUSY 0 = false := by decide

theorem witness_AcceptanceLatchesTheCommand (w : Word) :
    (writesCommand w (plat 4 4) [1]).busy = false ∧
    (writesCommand w (plat 4 4) [1]).schedule = .host (.write .reg 0x00 32 w) :: [] := ⟨idle_is_idle, rfl⟩

theorem witness_WritesWhileBusyAreDropped :
    (accepted codeEncode (plat 4 4) [1]).busy = true ∧
    locate (plat 4 4) .reg 0x00 32 = .ok .cmd ∧ locate (plat 4 4) .reg 0x14 32 = .ok .convOut ∧
    locate (plat 4 4) .ibuf 3 8 = .ok (.ibuf 3) ∧ locate (plat 4 4) .obuf 0 8 = .ok (.obuf 0) :=
  ⟨rfl, rfl, rfl, rfl, rfl⟩

theorem witness_IdleWritesStoreOnlyTheirLocation :
    let s := scheduled (plat 4 4) [] [.host (.write .ibuf 3 8 0x1FF)]
    s.busy = false ∧ s.schedule = [.host (.write .ibuf 3 8 0x1FF)] ∧ 3 < s.platform.inCap ∧ 3 < s.platform.outCap := by
  decide

theorem witness_DefinedReadsReturnTheStoredValue :
    (let s := scheduled (plat 4 4) [] [.host (.read .obuf 3 8)]
     s.busy = false ∧ s.schedule = [.host (.read .obuf 3 8)] ∧ 3 < s.platform.outCap) ∧
    (let s : State := { accepted codeDecode (plat 4 4) [1] with schedule := [.host (.read .ibuf 0 8)] }
     s.busy = true ∧ s.schedule = [.host (.read .ibuf 0 8)] ∧ 0 < s.platform.inCap) := by decide

theorem witness_ResultReadsWhileBusyAreFree :
    let s : State := { running codeDecode (plat 4 4) [1] with schedule := [.host (.read .obuf 3 8)] }
    s.busy = true ∧ s.schedule = [.host (.read .obuf 3 8)] ∧ 3 < s.platform.outCap := by decide

theorem witness_RegisterAccessesMustBeAlignedWords :
    (scheduled (plat 4 4) [] [.host (.read .reg 0x14 32)]).schedule = .host (.read .reg 0x14 32) :: [] ∧
    0x14 % 4 = 0 ∧ 0x14 < 0x18 ∧ 8 ≠ 32 ∧ 0x17 % 4 ≠ 0 ∧ 0x18 % 4 = 0 ∧ 0x18 ≤ 0x18 := by decide

theorem witness_BufferAccessesMustBeBytesInRange :
    let s := scheduled (plat 4 3) [] [.host (.write .obuf 2 8 0)]
    s.schedule = .host (.write .obuf 2 8 0) :: [] ∧ 2 < s.platform.outCap ∧ s.platform.outCap ≤ 3 ∧
    3 < s.platform.inCap ∧ s.platform.inCap ≤ 4 ∧ 32 ≠ 8 := by decide

theorem witness_BusAddressesReachTheirSpace :
    (plat 4 4).wf ∧ placeOf (plat 4 4) 0x17 = some (.reg, 0x17) ∧ placeOf (plat 4 4) 0x1003 = some (.ibuf, 3) ∧
    placeOf (plat 4 4) 0x2000 = some (.obuf, 0) ∧ placeOf (plat 4 4) 0x2004 = none := by decide

theorem witness_IdleBlockDoesNothing :
    (idle (plat 4 4) [1]).busy = false ∧ (idle (plat 4 4) [1]).schedule = [] ∧
    (scheduled (plat 4 4) [1] [.blockTurn]).schedule = .blockTurn :: [] := by decide

theorem witness_PollReadsStatusUntilIdle :
    (scheduled (plat 4 4) [] [.poll]).busy = false ∧ (scheduled (plat 4 4) [] [.poll]).schedule = .poll :: [] ∧
    (accepted codeToU8 (plat 4 4) []).busy = true := by decide

theorem witness_CheckStepRefusesIllegalCommands_illegal :
    (let s := accepted 0 (plat 2 4) [1]
     s.busy = true ∧ s.phase = .check ∧ s.schedule = [] ∧ s.op ≠ 1 ∧ s.op ≠ 2 ∧ s.op ≠ 3 ∧ s.op ≠ 4) ∧
    (let s := accepted 5 (plat 2 4) [1]
     s.busy = true ∧ s.phase = .check ∧ s.schedule = [] ∧ s.op ≠ 1 ∧ s.op ≠ 2 ∧ s.op ≠ 3 ∧ s.op ≠ 4) := by decide

theorem witness_CheckStepRefusesIllegalCommands :
    (let s := accepted codeDecode (plat 2 4) [1, 2, 3]
     s.busy = true ∧ s.phase = .check ∧ s.schedule = [] ∧ s.op = 2 ∧ s.platform.inCap < s.n.toNat) ∧
    (let s := accepted codeEncode (plat 2 4) [1, 2]
     s.busy = true ∧ s.phase = .check ∧ s.schedule = [] ∧ s.op = 1 ∧ s.n.toNat ≤ s.platform.inCap) ∧
    (let s := accepted codeToS8 (plat 2 4) [1, 2, 3]
     s.busy = true ∧ s.phase = .check ∧ s.schedule = [] ∧ s.op = 4) ∧
    (let s : State := { accepted codeToU8 (plat 2 4) [1, 2, 3] with schedule := [.blockTurn, .poll] }
     s.busy = true ∧ s.phase = .check ∧ s.schedule = .blockTurn :: [.poll] ∧ s.op = 3) := by decide

theorem witness_EmitStoresOneByteOrOverflows :
    (let s : State := { running codeEncode (plat 4 4) [1] with o := 3 }
     s.o < s.platform.outCap) ∧
    (let s : State := { running codeEncode (plat 4 4) [1] with o := 4 }
     s.platform.outCap ≤ s.o) := by decide

theorem witness_LitCopiesItsData :
    let s := running codeDecode (plat 4 1) [0x00, 5]
    (Instr.lit 0).wf = true ∧ ((1 : Nat) : Int) = 0 + 1 ∧ s.inputFits ∧ s.p + 1 + 1 ≤ s.n.toNat ∧
    s.o + 1 ≤ s.platform.outCap := by decide

set_option maxRecDepth 4096 in
theorem witness_LitCopiesItsData_longest :
    let s := running codeDecode (plat 129 128) (0x7F :: List.replicate 128 0)
    (Instr.lit 127).wf = true ∧ ((128 : Nat) : Int) = 127 + 1 ∧ s.inputFits ∧ s.p + 1 + 128 ≤ s.n.toNat ∧
    s.o + 128 ≤ s.platform.outCap := by decide

theorem witness_RepRepeatsItsValue :
    let s := running codeDecode (plat 2 128) [0x81, 7]
    (Instr.rep (-127)).wf = true ∧ ((128 : Nat) : Int) = -(-127) + 1 ∧ (Instr.rep (-1)).wf = true ∧ s.inputFits ∧
    s.p + 2 ≤ s.n.toNat ∧ s.o + 128 ≤ s.platform.outCap := by decide

theorem witness_TruncatedChunksRaiseCorruptData :
    (let s := running codeDecode (plat 4 4) [0x00]
     (Instr.lit 0).wf = true ∧ ((1 : Nat) : Int) = 0 + 1 ∧ s.n.toNat < s.p + 1 + 1) ∧
    (let s := running codeDecode (plat 4 4) [0xFF]
     (Instr.rep (-1)).wf = true ∧ s.n.toNat < s.p + 2) := by decide

theorem witness_OverflowingChunksRaiseOutOverflow :
    (let s := running codeDecode (plat 4 1) [0x01, 5, 6]
     s.inputFits ∧ s.o ≤ s.platform.outCap ∧ (Instr.lit 1).wf = true ∧ ((2 : Nat) : Int) = 1 + 1 ∧
     s.p + 1 + 2 ≤ s.n.toNat ∧ s.platform.outCap < s.o + 2) ∧
    (let s := running codeDecode (plat 4 1) [0xFF, 5]
     s.inputFits ∧ s.o ≤ s.platform.outCap ∧ (Instr.rep (-1)).wf = true ∧ ((2 : Nat) : Int) = -(-1) + 1 ∧
     s.p + 2 ≤ s.n.toNat ∧ s.platform.outCap < s.o + 2) := by decide

theorem witness_DecodeDispatchesOnTheControlByte :
    (let s := running codeDecode (plat 4 4) [0x80]
     s.inputFits ∧ s.p < s.n.toNat ∧ s.ibufByte s.p = 0x80#8) ∧
    (let s := running codeDecode (plat 4 4) [0x7F]
     s.inputFits ∧ s.p < s.n.toNat ∧ (s.ibufByte s.p).toNat ≤ 0x7F) ∧
    (let s := running codeDecode (plat 4 4) [0x81]
     s.inputFits ∧ s.p < s.n.toNat ∧ 0x81 ≤ (s.ibufByte s.p).toNat) := by decide

theorem witness_CodecCommandsCompleteWhenConsumed :
    (let s : State := { running codeDecode (plat 4 4) [0xFF, 1] with p := 2, o := 2 }
     s.runs codeDecode ∧ s.p = s.n.toNat) ∧
    (let s : State := { running codeEncode (plat 4 4) [1, 1] with i := 2, o := 2 }
     s.runs codeEncode ∧ s.i = s.n.toNat) := by decide

theorem witness_RunLengthIsTheLargest :
    let s := running codeEncode (plat 4 4) [5, 5]
    s.inputFits ∧ s.i + 1 < s.n.toNat ∧ s.ibufByte s.i = 5 ∧ s.ibufByte (s.i + 1) = 5 := by decide

set_option maxRecDepth 8192 in
theorem witness_EncodeTakesTheLastByte :
    let s : State := { running codeEncode (plat 127 128) (List.replicate 127 5) with i := 126, lit := List.replicate 126 5 }
    s.inputFits ∧ s.i + 1 = s.n.toNat ∧ s.lit.length ≤ 126 ∧ s.o + (s.lit.length + 2) ≤ s.platform.outCap := by decide

set_option maxRecDepth 8192 in
theorem witness_EncodeTakesADifferentByte :
    (let s := running codeEncode (plat 4 128) [5, 6]
     s.inputFits ∧ s.i + 1 < s.n.toNat ∧ s.ibufByte (s.i + 1) ≠ s.ibufByte s.i ∧ s.lit.length < 126) ∧
    (let s : State := { running codeEncode (plat 4 128) [5, 6] with lit := List.replicate 126 0 }
     s.inputFits ∧ s.i + 1 < s.n.toNat ∧ s.ibufByte (s.i + 1) ≠ s.ibufByte s.i ∧ s.lit.length = 126 ∧
     s.o + 128 ≤ s.platform.outCap) := by decide

theorem witness_EncodeTakesARun :
    (let s := running codeEncode (plat 4 2) [5, 5]
     s.inputFits ∧ s.i + 1 < s.n.toNat ∧ s.ibufByte (s.i + 1) = s.ibufByte s.i ∧ s.lit.length ≤ 127 ∧ s.lit = [] ∧
     2 = s.runLength (s.ibufByte s.i) ∧ s.o + 2 ≤ s.platform.outCap) ∧
    (let s : State := { running codeEncode (plat 4 4) [6, 5, 5] with i := 1, lit := [6] }
     s.inputFits ∧ s.i + 1 < s.n.toNat ∧ s.ibufByte (s.i + 1) = s.ibufByte s.i ∧ s.lit.length ≤ 127 ∧ s.lit ≠ [] ∧
     2 = s.runLength (s.ibufByte s.i) ∧ s.o + (s.lit.length + 3) ≤ s.platform.outCap) := by decide

set_option maxRecDepth 8192 in
theorem witness_EncodeStepOverflows :
    (let s := running codeEncode (plat 4 1) [5]
     s.inputFits ∧ s.i < s.n.toNat ∧ s.o ≤ s.platform.outCap ∧ s.lit.length ≤ 126 ∧ s.i + 1 = s.n.toNat ∧
     s.platform.outCap < s.o + (s.lit.length + 2)) ∧
    (let s : State := { running codeEncode (plat 4 127) [5, 6] with lit := List.replicate 126 0 }
     s.inputFits ∧ s.i < s.n.toNat ∧ s.o ≤ s.platform.outCap ∧ s.i + 1 < s.n.toNat ∧
     s.ibufByte (s.i + 1) ≠ s.ibufByte s.i ∧ s.lit.length = 126 ∧ s.platform.outCap < s.o + 128) ∧
    (let s := running codeEncode (plat 4 1) [5, 5]
     s.inputFits ∧ s.i < s.n.toNat ∧ s.o ≤ s.platform.outCap ∧ s.i + 1 < s.n.toNat ∧
     s.ibufByte (s.i + 1) = s.ibufByte s.i ∧ s.platform.outCap < s.o + (if s.lit = [] then 2 else s.lit.length + 3)) := by
  decide

theorem witness_ToU8ZeroExtendsTheLowByte : (running codeToU8 (plat 4 4) []).runs codeToU8 := by decide

theorem witness_ToS8SignExtendsTheLowByte : (running codeToS8 (plat 4 4) []).runs codeToS8 := by decide

/-- One RUN step of each instruction that goes on, is completed, or fails. -/
theorem witness_RunStepsKeepTheInputs :
    nextIs (exec (.lit 0) (running codeDecode (plat 4 4) [0x00, 5])) (fun t => t.busy) = true ∧
    nextIs (exec .toU8 (running codeToU8 (plat 4 4) [])) (fun t => !t.busy) = true := by decide

theorem witness_RunStepsWriteObufOnlyFromTheCount :
    (let s := running codeDecode (plat 4 4) [0xFF, 5]
     s.status = statusAccepted ∧ s.o ≤ s.platform.outCap ∧
     nextIs (exec (.rep (-1)) s) (fun t => t.status = statusAccepted) = true) ∧
    (let s : State := { running codeDecode (plat 4 4) [0xFF, 5] with p := 2, o := 4 }
     s.o ≤ s.platform.outCap ∧ nextIs (exec .decode s) (fun t => t.status = statusCompleted) = true) := by decide

theorem witness_InputsAreFixedWhileBusy :
    (let s : State := { running codeEncode (plat 4 4) [5] with schedule := [.host (.write .reg 0x08 32 9)] }
     s.busy = true ∧ nextIs (step s) (fun t => t.busy) = true) ∧
    ∀ rest, ({ running codeEncode (plat 4 4) [5] with schedule := [.host (.write .reg 0x08 32 9)] } : State).schedule ≠
      .reset :: rest := ⟨by decide, fun _ h => by cases h⟩

theorem witness_ResultCodeStaysUntilTheNextCommand :
    (idle (plat 4 4) [5]).busy = false ∧
    nextIs (step (scheduled (plat 4 4) [5] [.host (.writeAt 0 32 1)])) (fun t => t.status = statusAccepted) = true ∧
    nextIs (step (scheduled (plat 4 4) [5] [.reset])) (fun t => t.status = 0) = true ∧
    nextIs (step (idle (plat 4 4) [5])) (fun t => t.status = 0) = true := by decide

theorem witness_platform : (plat 1 1).wf ∧ (plat 256 256).wf := by decide

/-- The invariant holds in a reset state (`ResetSatisfiesTheInvariant`, `StatusFieldsAreConsistent`). -/
theorem witness_Inv_reset : Inv State.reset where
  platform := by decide
  status := by decide
  outLen := by decide
  convOut := ⟨0, by decide⟩
  ibuf := by decide
  obuf := by decide
  draws := by decide
  running := fun h => absurd h (by decide)

/-- The invariant holds in a running state, in the CHECK phase. -/
theorem witness_Inv_accepted : Inv (accepted codeDecode (plat 4 4) [0xFF, 5]) where
  platform := by decide
  status := by decide
  outLen := by decide
  convOut := ⟨0, by decide⟩
  ibuf := by decide
  obuf := by decide
  draws := by decide
  running := fun _ => {
    latched := rfl
    start := fun _ => by decide
    checked := fun h => absurd h (by decide)
    cursors := by decide
    literals := by decide
    pending := ⟨by decide, fun j b h => by simp [accepted, State.accept] at h⟩
    drained := fun _ => rfl }

/-- The invariant holds of each codec command in the RUN phase on two bytes. -/
theorem witness_Inv_running_encode : Inv (running codeEncode (plat 4 4) [0xFF, 5]) where
  platform := by decide
  status := by decide
  outLen := by decide
  convOut := ⟨0, by decide⟩
  ibuf := by decide
  obuf := by decide
  draws := by decide
  running := fun _ => {
    latched := rfl
    start := fun h => by cases h
    checked := fun _ => ⟨(nomatch ·), fun _ => by decide⟩
    cursors := by decide
    literals := by decide
    pending := ⟨by decide, fun j b h => by simp [running, accepted, State.accept] at h⟩
    drained := fun _ => rfl }

theorem witness_Inv_running_decode : Inv (running codeDecode (plat 4 4) [0xFF, 5]) where
  platform := by decide
  status := by decide
  outLen := by decide
  convOut := ⟨0, by decide⟩
  ibuf := by decide
  obuf := by decide
  draws := by decide
  running := fun _ => {
    latched := rfl
    start := fun h => by cases h
    checked := fun _ => ⟨(nomatch ·), fun _ => by decide⟩
    cursors := by decide
    literals := by decide
    pending := ⟨by decide, fun j b h => by simp [running, accepted, State.accept] at h⟩
    drained := fun _ => rfl }

/-- A step from each of those states (`EveryStepKeepsTheInvariant`), and a refused one (`NoStepFaults`). -/
theorem witness_EveryStepKeepsTheInvariant :
    nextIs (step State.reset) (fun t => !t.busy) = true ∧
    nextIs (step (accepted codeDecode (plat 4 4) [0xFF, 5])) (fun t => t.phase = .run) = true ∧
    nextIs (step (running codeDecode (plat 4 4) [0xFF, 5])) (fun t => t.busy) = true := by decide

theorem witness_NoStepFaults :
    Inv (scheduled (plat 4 4) [] [.host (.read .ibuf 4 8)]) ∧
    refusedIs (step (scheduled (plat 4 4) [] [.host (.read .ibuf 4 8)])) .bufferIndex = true :=
  ⟨{ platform := by decide, status := by decide, outLen := by decide, convOut := ⟨0, Or.inl rfl⟩, ibuf := by decide,
     obuf := by decide, draws := by decide, running := fun h => absurd h (by decide) }, by decide⟩

/-- Beside `witness_Inv_running_encode` and `witness_Inv_running_decode`: the states are busy, run, and their next state
is still busy. -/
theorem witness_CursorsAdvance :
    (let s := running codeEncode (plat 4 4) [0xFF, 5]
     s.busy = true ∧ s.phase = .run ∧ s.schedule = [] ∧ nextIs (step s) (fun t => t.busy) = true) ∧
    (let s := running codeDecode (plat 4 4) [0xFF, 5]
     s.busy = true ∧ s.phase = .run ∧ s.schedule = [] ∧ nextIs (step s) (fun t => t.busy) = true) ∧
    (let s : State := { running codeDecode (plat 4 4) [0xFF, 5] with schedule := [.blockTurn, .poll] }
     s.busy = true ∧ s.phase = .run ∧ s.schedule = .blockTurn :: [.poll] ∧
     nextIs (step s) (fun t => t.busy) = true) := by decide

/-- Beside `witness_Inv_running_encode` and `witness_Inv_running_decode`: both commands start on course, and a step of the
block as well as one of the host leaves them running. -/
theorem witness_CodecStepsStayOnCourse :
    (running codeEncode (plat 4 4) [0xFF, 5]).runs codeEncode ∧ EncoderOnCourse (running codeEncode (plat 4 4) [0xFF, 5]) ∧
    (running codeDecode (plat 4 4) [0xFF, 5]).runs codeDecode ∧
    DecoderOnCourse (running codeDecode (plat 4 4) [0xFF, 5]) ∧
    nextIs (step (running codeEncode (plat 4 4) [0xFF, 5])) (fun t => t.busy) = true ∧
    nextIs (step { running codeDecode (plat 4 4) [0xFF, 5] with schedule := [.host (.write .ibuf 0 8 1)] })
      (fun t => t.busy) = true :=
  ⟨by decide, rfl, by decide, rfl, by decide, by decide⟩

theorem witness_EncodeCommandComputesEncode :
    (let s := writesCommand codeEncode (plat 3 3) [5, 5]
     s.platform.wf ∧ s.busy = false ∧ s.commanded codeEncode ∧ s.inLen.toNat ≤ s.platform.inCap ∧
     (Codec.encode s.rawSeq).length ≤ s.platform.outCap) ∧
    (let s := writesCommand codeEncode (plat 3 3) [5, 6, 7]
     s.inLen.toNat ≤ s.platform.inCap ∧ s.platform.outCap < (Codec.encode s.rawSeq).length) ∧
    (let s := writesCommand codeEncode (plat 3 3) [5, 6, 7, 8]
     s.platform.inCap < s.inLen.toNat) := by decide

theorem witness_DecodeCommandComputesDecode :
    (let s := writesCommand codeDecode (plat 3 2) [0xFF, 5]
     s.platform.wf ∧ s.busy = false ∧ s.commanded codeDecode ∧ s.inLen.toNat ≤ s.platform.inCap ∧
     Codec.decode s.rawSeq = .ok [5, 5] ∧ [5, 5].length ≤ s.platform.outCap) ∧
    (let s := writesCommand codeDecode (plat 3 2) [0xFE, 5]
     s.inLen.toNat ≤ s.platform.inCap ∧ Codec.decode s.rawSeq = .ok [5, 5, 5] ∧ s.platform.outCap < [5, 5, 5].length) ∧
    (let s := writesCommand codeDecode (plat 3 1) [0xFF, 5, 0x00]
     s.inLen.toNat ≤ s.platform.inCap ∧ Codec.decode s.rawSeq = .corruptData ∧
     s.platform.outCap < (streamOutput (parse s.rawSeq).1).length) ∧
    (let s := writesCommand codeDecode (plat 3 2) [0xFF, 5, 0x00]
     s.inLen.toNat ≤ s.platform.inCap ∧ Codec.decode s.rawSeq = .corruptData ∧
     (streamOutput (parse s.rawSeq).1).length ≤ s.platform.outCap) ∧
    (let s := writesCommand codeDecode (plat 1 1) [0xFF, 5]
     s.platform.inCap < s.inLen.toNat) := by decide

theorem witness_OtherCommandsEndInThreeSteps (w : Word) :
    (writesCommand w (plat 3 3) [5]).busy = false ∧ (writesCommand w (plat 3 3) [5]).commanded w ∧
    codeToU8 ≠ codeEncode ∧ codeToU8 ≠ codeDecode ∧ codeToS8 ≠ codeEncode ∧ codeToS8 ≠ codeDecode ∧
    (5 : Word) ≠ codeEncode ∧ (5 : Word) ≠ codeDecode ∧ (5 : Word) ≠ codeToU8 ∧ (5 : Word) ≠ codeToS8 ∧
    (0 : Word) ≠ codeEncode ∧ (0 : Word) ≠ codeDecode ∧ (0 : Word) ≠ codeToU8 ∧ (0 : Word) ≠ codeToS8 :=
  ⟨idle_is_idle, rfl, by decide⟩

theorem witness_ResultsDependOnlyOnTheInputs (w : Word) :
    let s := writesCommand w (plat 3 3) [0xFF, 5]
    let s' : State := { s with outLen := 3, convOut := 1, obuf := [(0, 9)], i := 7, lit := [1], draws := 9 }
    s.platform.wf ∧ s.busy = false ∧ s'.busy = false ∧ s.commanded w ∧ s'.commanded w ∧
    s'.platform.inCap = s.platform.inCap ∧ s'.platform.outCap = s.platform.outCap ∧ s'.inLen = s.inLen ∧
    s'.rawSeq = s.rawSeq ∧ s'.convIn = s.convIn :=
  ⟨show (plat 3 3).wf by decide, idle_is_idle, idle_is_idle, rfl, rfl, rfl, rfl, rfl, rfl, rfl⟩

/-- Each clause of `ResultsDependOnlyOnTheInputs` speaks of some command, and a codec command can succeed. -/
theorem witness_ResultsDependOnlyOnTheInputs_clauses :
    ((0 : Word) ≠ codeToU8 ∧ (0 : Word) ≠ codeToS8) ∧ isCodecCommand codeDecode = true ∧
    nextIs (step { running codeDecode (plat 4 4) [0xFF, 5] with p := 2, o := 2 })
      (fun t => t.status = statusCompleted) = true := by decide

end Sys2Proof.Tests
end

section
/-! How a command ends from an idle state: the accepting step, CHECK, and the RUN steps, each with the block alone
(spec/40 R112, R117, R122). -/

namespace Sys2Proof.Machine

/-! ### Runs that end -/

/-- From `s`, BUSY stays 1 for `m` steps and is 0 after them, in `t`. -/
inductive EndsIn : State → Nat → State → Prop
  | ended {t : State} (ht : t.busy = false) : EndsIn t 0 t
  | more {s u t : State} {m : Nat} (hs : s.busy = true) (hu : step s = .next u) (he : EndsIn u m t) :
      EndsIn s (m + 1) t

theorem run_succ {s u : State} (h : step s = .next u) (k : Nat) :
    Host.Core.run core (k + 1) s = Host.Core.run core k u := by
  have hstep : core.step s = .next u := h
  simp only [Host.Core.run, hstep]

theorem EndsIn.run {s t : State} {m : Nat} (h : EndsIn s m t) :
    Host.Core.run core m s = .next t ∧ t.busy = false ∧
    ∀ k < m, ∃ u : State, Host.Core.run core k s = .next u ∧ u.busy = true := by
  induction h with
  | ended ht => exact ⟨rfl, ht, fun k hk => absurd hk (Nat.not_lt_zero k)⟩
  | more hs hu _ ih =>
    obtain ⟨hrun, ht, hbusy⟩ := ih
    refine ⟨(run_succ hu _).trans hrun, ht, fun k hk => ?_⟩
    cases k with
    | zero => exact ⟨_, rfl, hs⟩
    | succ k => rw [run_succ hu]; exact hbusy k (Nat.lt_of_succ_lt_succ hk)

/-- A command that is accepted in one step and then ends. -/
theorem EndsIn.endsAt {s u t : State} {m : Nat} (h : step s = .next u) (hu : u.busy = true) (he : EndsIn u m t) :
    EndsAt s (m + 1) t := by
  obtain ⟨hrun, ht, hbusy⟩ := he.run
  have hm : 1 ≤ m := by
    cases he with
    | ended ht => simp [ht] at hu
    | more => exact Nat.succ_pos _
  refine ⟨Nat.succ_le_succ hm, (run_succ h m).trans hrun, ht, fun k hk hkm => ?_⟩
  obtain ⟨k, rfl⟩ : ∃ j, k = j + 1 := ⟨k - 1, by omega⟩
  rw [run_succ h]
  exact hbusy k (by omega)

/-! ### Acceptance and CHECK -/

/-- The state in which the write of CMD, with nothing scheduled after it, leaves an idle block. -/
def State.begun (s : State) (w : Word) : State := ({ s with schedule := [] } : State).accept w

theorem step_commanded {s : State} {w : Word} (hb : s.busy = false) (hc : s.commanded w) :
    step s = .next (s.begun w) := by
  have hb' : ({ s with schedule := [] } : State).busy = false := hb
  simp [step_host hc, hostAccess, locate, registerAt, hostWrite, hb', State.begun]

/-- The same command past CHECK. -/
def State.checked (s : State) (w : Word) : State := { s.begun w with phase := .run }

@[simp] theorem State.begun_busy (s : State) (w : Word) : (s.begun w).busy = true := State.busy_of_accepted rfl

@[simp] theorem State.checked_busy (s : State) (w : Word) : (s.checked w).busy = true := State.busy_of_accepted rfl

@[simp] theorem State.checked_platform (s : State) (w : Word) : (s.checked w).platform = s.platform := rfl
@[simp] theorem State.checked_n (s : State) (w : Word) : (s.checked w).n = s.inLen := rfl
@[simp] theorem State.checked_ibufByte (s : State) (w : Word) (k : Nat) : (s.checked w).ibufByte k = s.ibufByte k := rfl

theorem step_begun (s : State) (w : Word) : step (s.begun w) = .next (checkStep (s.begun w)) := by
  rw [step_unscheduled rfl, perform_check (s.begun_busy w) rfl]

@[simp] theorem State.raiseErr_busy (s : State) (e : ErrCode) : (s.raiseErr e).busy = false := by
  simp [State.busy]

@[simp] theorem State.lost_busy (s : State) (e : ErrCode) : (s.lost (statusError e)).busy = false := by
  simp [State.busy]

@[simp] theorem State.complete_busy (s : State) : s.complete.busy = false := State.not_busy_of_completed rfl

/-- A word that is no command of the codec or the converter is no command (spec/30 R93). -/
theorem decodeCommand_illegal {w : Word} (hc : isCodecCommand w = false) (h8 : w ≠ codeToU8) (hs : w ≠ codeToS8) :
    decodeCommand w = .error (.illegalCommand w) := by
  simp only [isCodecCommand, Bool.or_eq_false_iff, decide_eq_false_iff_not] at hc
  simp [decodeCommand, hc, h8, hs]

theorem decodeCommand_codec {w : Word} (hc : isCodecCommand w = true) : ∃ i, decodeCommand w = .ok i := by
  simp only [isCodecCommand, Bool.or_eq_true, decide_eq_true_eq] at hc
  rcases hc with rfl | rfl
  · exact ⟨.encode, rfl⟩
  · exact ⟨.decode, rfl⟩

theorem checkStep_illegal {s : State} {r : DecodeReject} (h : decodeCommand s.op = .error r) :
    checkStep s = s.raiseErr .illegalCmd := by simp [checkStep, h]

theorem checkStep_lenRange {s : State} (hc : isCodecCommand s.op = true) (hn : s.platform.inCap < s.n.toNat) :
    checkStep s = s.raiseErr .lenRange := by
  obtain ⟨i, hi⟩ := decodeCommand_codec hc
  simp [checkStep, hi, hc, hn]

theorem checkStep_codec {s : State} (hc : isCodecCommand s.op = true) (hn : s.inputFits) :
    checkStep s = { s with phase := .run } := by
  obtain ⟨i, hi⟩ := decodeCommand_codec hc
  simp [checkStep, hi, Nat.not_lt.mpr hn]

/-- A command that CHECK refuses ends with that step. -/
theorem State.begun_refused {s : State} {w : Word} {e : ErrCode} (h : checkStep (s.begun w) = (s.begun w).raiseErr e) :
    EndsIn (s.begun w) 1 ((s.begun w).raiseErr e) :=
  .more (s.begun_busy w) (h ▸ step_begun s w) (.ended (State.raiseErr_busy _ e))

/-! ### The converter commands -/

/-- What a converter command puts in CONV_OUT (spec/43 R204, R205). -/
def converted (w v : Word) : Word := if w = codeToU8 then (lowByte v).setWidth 32 else (lowByte v).signExtend 32

/-- The RUN step of a converter command stores its result and completes. -/
theorem perform_converter {s : State} {w : Word} (hs : s.busy = true) (hp : s.phase = .run) (hop : s.op = w)
    (hw : w = codeToU8 ∨ w = codeToS8) :
    perform (blockAction s) = .next ({ s with convOut := converted w s.convIn } : State).complete := by
  rcases hw with rfl | rfl
  · exact perform_run (i := .toU8) hs hp (by simp only [State.nextInstr, hop]; rfl)
  · exact perform_run (i := .toS8) hs hp (by simp only [State.nextInstr, hop]; rfl)

/-- A converter command ends after CHECK and one RUN step. -/
theorem State.begun_converts (s : State) {w : Word} (hw : w = codeToU8 ∨ w = codeToS8) :
    EndsIn (s.begun w) 2 ({ s.checked w with convOut := converted w s.convIn } : State).complete := by
  have hcheck : checkStep (s.begun w) = s.checked w := by rcases hw with rfl | rfl <;> rfl
  have hrun : step (s.checked w) = .next ({ s.checked w with convOut := converted w s.convIn } : State).complete := by
    rw [step_unscheduled rfl]
    exact perform_converter (s.checked_busy w) rfl rfl hw
  exact .more (s.begun_busy w) (hcheck ▸ step_begun s w)
    (.more (s.checked_busy w) hrun (.ended (State.complete_busy _)))

/-! ### The codec commands -/

/-- One RUN step of a codec command (spec/40 R119). -/
def codecStep (w : Word) (s : State) : Host.Outcome State Fault Refusal :=
  if w = codeEncode then execEncode s else execDecode s

/-- The cursor of a codec command. -/
def State.cursor (w : Word) (s : State) : Nat := if w = codeEncode then s.i else s.p

/-- A codec command past CHECK, with nothing scheduled, its cursor inside the input. -/
structure CodecRuns (w : Word) (s : State) : Prop where
  codec : isCodecCommand w = true
  runs : s.runs w
  alone : s.schedule = []
  inputFits : s.inputFits
  cursor : s.cursor w ≤ s.n.toNat

theorem perform_encode {s : State} (hs : s.busy = true) (hp : s.phase = .run) (hop : s.op = codeEncode) :
    perform (blockAction s) = execEncode s :=
  perform_run (i := .encode) hs hp (by simp only [State.nextInstr, hop]; rfl)

/-- What a turn of DECODE runs, fetched from the stream or not, is `DEC_STEP` (spec/42 R172, R173). -/
theorem perform_decode {s : State} (hs : s.busy = true) (hp : s.phase = .run) (hop : s.op = codeDecode) :
    perform (blockAction s) = execDecode s := by
  have hdec : decodeCommand s.op = .ok .decode := by rw [hop]; rfl
  by_cases hend : s.p = s.n.toNat
  · exact perform_run (i := .decode) hs hp (by simp [State.nextInstr, hdec, hend])
  · rw [execDecode_eq, if_neg hend]
    cases hb : s.input? s.p with
    | none => simp [blockAction, hs, hp, State.nextInstr, hdec, hend, hb, perform]
    | some b => exact perform_run hs hp (by simp [State.nextInstr, hdec, hend, hb])

/-- With nothing scheduled, the machine's step of a running codec command is its unit's. -/
theorem step_codec {w : Word} {s : State} (hc : isCodecCommand w = true) (hr : s.runs w) (ha : s.schedule = []) :
    step s = codecStep w s := by
  obtain ⟨hst, hph, hop⟩ := hr
  have hs : s.busy = true := State.busy_of_accepted hst
  simp only [isCodecCommand, Bool.or_eq_true, decide_eq_true_eq] at hc
  rw [step_unscheduled ha]
  rcases hc with rfl | rfl
  · exact perform_encode hs hph hop
  · exact perform_decode hs hph hop

theorem codecStep_runStep {w : Word} {s t : State} (h : codecStep w s = .next t) : RunStep .decode s t := by
  unfold codecStep at h
  split at h
  · exact execEncode_runStep h
  · exact exec_runStep (i := .decode) h

/-- A RUN step that leaves the command running keeps what says which command runs, on what input. -/
theorem RunStep.keeps_of_busy {i : Instr} {s t : State} (h : RunStep i s t) (hb : t.busy = true) :
    t.status = s.status ∧ t.phase = s.phase ∧ t.op = s.op ∧ t.n = s.n ∧ t.platform = s.platform ∧
    t.schedule = s.schedule := by
  cases h with
  | goesOn => exact ⟨rfl, rfl, rfl, rfl, rfl, rfl⟩
  | completes => simp at hb
  | ends w _ _ hw => rcases hw with rfl | rfl <;> simp [State.busy, State.lost, statusBUSY] at hb

/-! ### The encoder advances -/

theorem State.le_scanRun (s : State) (v : Byte) (fuel L : Nat) : L ≤ s.scanRun v fuel L := by
  induction fuel generalizing L with
  | zero => exact Nat.le_refl L
  | succ fuel ih =>
    rw [State.scanRun]
    split
    · exact Nat.le_of_succ_le (ih (L + 1))
    · exact Nat.le_refl L

/-- The scan of a run stays inside the input. -/
theorem State.scanRun_inside (s : State) (v : Byte) (fuel L : Nat) (h : s.i + L ≤ s.n.toNat) :
    s.i + s.scanRun v fuel L ≤ s.n.toNat := by
  induction fuel generalizing L with
  | zero => exact h
  | succ fuel ih =>
    rw [State.scanRun]
    split
    · next hc => exact ih (L + 1) hc.2.1
    · exact h

/-- ENC_STEP of a running command ends it or moves `i` forward, not past `n` (spec/41 R139). -/
theorem execEncode_advances {s : State} (hf : s.inputFits) (hi : s.i ≤ s.n.toNat) :
    ∃ t, execEncode s = .next t ∧ (t.busy = false ∨ s.i < t.i ∧ t.i ≤ s.n.toNat) := by
  have hover : ∀ l, ({ s.overflowed with lit := l } : State).busy = false := fun _ => s.lost_busy .outOverflow
  unfold execEncode
  split
  · exact ⟨_, rfl, .inl s.complete_busy⟩
  · rw [State.input?_inside (by omega) hf]
    simp only
    split
    · rw [State.encodeLast_eq]
      split
      · exact ⟨_, rfl, .inr ⟨Nat.lt_succ_self _, by simp only; omega⟩⟩
      · exact ⟨_, rfl, .inl (hover _)⟩
    · rw [State.input?_inside (by omega) hf]
      simp only
      split
      · rw [State.encodeDifferent_eq]
        split
        · split
          · exact ⟨_, rfl, .inr ⟨Nat.lt_succ_self _, by simp only; omega⟩⟩
          · exact ⟨_, rfl, .inl (hover _)⟩
        · exact ⟨_, rfl, .inr ⟨Nat.lt_succ_self _, by simp only; omega⟩⟩
      · have hlow := s.le_scanRun (s.ibufByte s.i) 126 2
        have hhigh := s.scanRun_inside (s.ibufByte s.i) 126 2 (by omega)
        rcases s.encodeEqual_cases (s.ibufByte s.i) with ⟨_, he⟩ | ⟨_, l, he⟩
        · exact ⟨_, by rw [he]; rfl, .inr (by simp only [State.runLength]; omega)⟩
        · exact ⟨_, by rw [he]; rfl, .inl (hover l)⟩

/-! ### The decoder advances -/

theorem execLit_advances (c : Int) {s : State} (hf : s.inputFits) :
    ∃ t, execLit c s = .next t ∧ (t.busy = false ∨ s.p < t.p ∧ t.p ≤ s.n.toNat) := by
  rw [execLit_eq]
  split
  · exact ⟨_, rfl, .inl (s.lost_busy .corruptData)⟩
  · rw [State.inputRange?_inside (by omega) hf]
    refine ⟨_, rfl, ?_⟩
    split
    · exact .inr (by simp only; omega)
    · exact .inl (s.lost_busy .outOverflow)

theorem execRep_advances (c : Int) {s : State} (hf : s.inputFits) :
    ∃ t, execRep c s = .next t ∧ (t.busy = false ∨ s.p < t.p ∧ t.p ≤ s.n.toNat) := by
  rw [execRep_eq]
  split
  · exact ⟨_, rfl, .inl (s.lost_busy .corruptData)⟩
  · rw [State.input?_inside (by omega) hf]
    refine ⟨_, rfl, ?_⟩
    split
    · exact .inr (by simp only; omega)
    · exact .inl (s.lost_busy .outOverflow)

/-- DEC_STEP of a running command ends it or moves `p` forward, not past `n` (spec/42 R179). -/
theorem execDecode_advances {s : State} (hf : s.inputFits) (hp : s.p ≤ s.n.toNat) :
    ∃ t, execDecode s = .next t ∧ (t.busy = false ∨ s.p < t.p ∧ t.p ≤ s.n.toNat) := by
  unfold execDecode
  split
  · exact ⟨_, rfl, .inl s.complete_busy⟩
  · rw [State.input?_inside (by omega) hf]
    simp only
    split
    · exact ⟨_, rfl, .inr ⟨Nat.lt_succ_self _, by simp only; omega⟩⟩
    · split
      · exact execLit_advances _ hf
      · exact execRep_advances _ hf

/-! ### A codec command ends -/

theorem codecStep_advances {w : Word} {s : State} (hf : s.inputFits) (h : s.cursor w ≤ s.n.toNat) :
    ∃ t, codecStep w s = .next t ∧ (t.busy = false ∨ s.cursor w < t.cursor w ∧ t.cursor w ≤ s.n.toNat) := by
  unfold codecStep State.cursor at *
  split at h
  · next hw => simpa only [hw, if_true] using execEncode_advances hf h
  · next hw => simpa only [hw, if_false] using execDecode_advances hf h

/-- A step of a running codec command ends it, or leaves it running with less input left. -/
theorem CodecRuns.step {w : Word} {s : State} (h : CodecRuns w s) :
    ∃ t, Machine.step s = .next t ∧
      (t.busy = false ∨ CodecRuns w t ∧ t.n.toNat - t.cursor w < s.n.toNat - s.cursor w) := by
  obtain ⟨hc, hr, ha, hf, hcur⟩ := h
  obtain ⟨t, ht, hend⟩ := codecStep_advances hf hcur
  refine ⟨t, (step_codec hc hr ha).trans ht, ?_⟩
  cases hb : t.busy with
  | false => exact .inl rfl
  | true =>
    obtain ⟨hlt, hle⟩ := hend.resolve_left (by simp [hb])
    obtain ⟨hst, hph, hop, hn, hpl, hsch⟩ := (codecStep_runStep ht).keeps_of_busy hb
    refine .inr ⟨⟨hc, ⟨hst.trans hr.1, hph.trans hr.2.1, hop.trans hr.2.2⟩, hsch.trans ha, ?_, ?_⟩, ?_⟩
    · simpa only [State.inputFits, hn, hpl] using hf
    · simpa only [hn] using hle
    · rw [hn]; omega

/-- A running codec command ends within one step more than it has bytes left (spec/40 R122). -/
theorem CodecRuns.ends {w : Word} {s : State} (h : CodecRuns w s) :
    ∃ m t, m ≤ s.n.toNat - s.cursor w + 1 ∧ EndsIn s m t := by
  induction hk : s.n.toNat - s.cursor w using Nat.strong_induction_on generalizing s with
  | _ k ih =>
    have hs : s.busy = true := State.busy_of_accepted h.runs.1
    obtain ⟨u, hu, hb | ⟨hru, hlt⟩⟩ := h.step
    · exact ⟨1, u, by omega, .more hs hu (.ended hb)⟩
    · obtain ⟨m, t, hm, he⟩ := ih _ (hk ▸ hlt) hru rfl
      exact ⟨m + 1, t, by omega, .more hs hu he⟩

/-- Past CHECK, a codec command whose input fits is running. -/
theorem State.begun_codecRuns {s : State} {w : Word} (hc : isCodecCommand w = true)
    (hf : s.inLen.toNat ≤ s.platform.inCap) : CodecRuns w (s.checked w) :=
  ⟨hc, ⟨rfl, rfl, rfl⟩, rfl, hf, by unfold State.cursor; split <;> exact Nat.zero_le _⟩

end Sys2Proof.Machine
end

section
/-! Noninterference: two commands on the same inputs take the same steps to the same results (spec/00 R13,
spec/40 R116). -/

namespace Sys2Proof.Machine

/-! ### The relations -/

/-- Two ends of the command `w` with the same results. -/
structure EndsAlike (w : Word) (t t' : State) : Prop where
  idle : t.busy = false
  status : t'.status = t.status
  convOut : w = codeToU8 ∨ w = codeToS8 → t'.convOut = t.convOut
  outLen : w ≠ codeToU8 → w ≠ codeToS8 → t'.outLen = t.outLen
  output : isCodecCommand w = true → t.status = statusCompleted →
    t'.outputSeq t'.outLen.toNat = t.outputSeq t.outLen.toNat

/-- Two runs of the codec command `w` at the same point: they read the same input and have emitted the same bytes. The
registers, the draws, IBUF beyond the input and OBUF beyond the count are free. -/
structure CodecAlike (w : Word) (s s' : State) : Prop where
  codec : isCodecCommand w = true
  runs : s.runs w
  runs' : s'.runs w
  alone : s.schedule = []
  alone' : s'.schedule = []
  outCap : s'.platform.outCap = s.platform.outCap
  n : s'.n = s.n
  i : s'.i = s.i
  lit : s'.lit = s.lit
  p : s'.p = s.p
  o : s'.o = s.o
  input : ∀ k, s'.input? k = s.input? k
  output : ∀ k < s.o, s'.obufByte k = s.obufByte k

/-- Two outcomes of a RUN step of `w`: both run on alike, both end alike, or both stop with the same fault. -/
inductive StepsAlike (w : Word) : Host.Outcome State Fault Refusal → Host.Outcome State Fault Refusal → Prop
  | goesOn {t t' : State} (h : CodecAlike w t t') : StepsAlike w (.next t) (.next t')
  | ends {t t' : State} (h : EndsAlike w t t') : StepsAlike w (.next t) (.next t')
  | faults (f : Fault) : StepsAlike w (.fault f) (.fault f)

theorem not_converter_of_codec {w : Word} (h : isCodecCommand w = true) : ¬ (w = codeToU8 ∨ w = codeToS8) := by
  rintro (rfl | rfl) <;> revert h <;> decide

/-- Two ends with the same error are alike, unless a converter command ends so, and none does. -/
theorem EndsAlike.of_error {w : Word} {t t' : State} (e : ErrCode) (hw : ¬ (w = codeToU8 ∨ w = codeToS8))
    (ht : t.status = statusError e) (ht' : t'.status = statusError e) (ho : t.outLen = 0) (ho' : t'.outLen = 0) :
    EndsAlike w t t' where
  idle := by simp [State.busy, ht]
  status := ht'.trans ht.symm
  convOut h := absurd h hw
  outLen _ _ := ho'.trans ho.symm
  output _ hst := by rw [ht] at hst; cases e <;> exact absurd hst (by decide)

/-! ### What the relation gives, one lemma per operation -/

section
variable {w : Word} {s s' : State} (h : CodecAlike w s s')
include h

theorem CodecAlike.inputRange (a k : Nat) : s'.inputRange? a k = s.inputRange? a k := by
  induction k generalizing a with
  | zero => rfl
  | succ k ih => simp only [State.inputRange?, h.input, ih]

theorem CodecAlike.scanRun (v : Byte) (fuel L : Nat) : s'.scanRun v fuel L = s.scanRun v fuel L := by
  induction fuel generalizing L with
  | zero => rfl
  | succ fuel ih => simp only [State.scanRun, h.i, h.n, h.input, ih]

theorem CodecAlike.runLength (v : Byte) : s'.runLength v = s.runLength v := h.scanRun v 126 2

theorem CodecAlike.runBytes (v : Byte) : s'.runBytes v = s.runBytes v := by
  simp only [State.runBytes, h.lit, h.runLength]

theorem CodecAlike.fits (bs : List Byte) : s'.fits bs ↔ s.fits bs := by rw [State.fits, h.o, h.outCap]

/-- Both runs emit the same bytes and set their cursors and literals alike. -/
theorem CodecAlike.emitted (bs : List Byte) {l l' : List Byte} {i i' p p' : Nat} (hl : l' = l) (hi : i' = i)
    (hp : p' = p) :
    CodecAlike w { s.emitted bs with i := i, lit := l, p := p } { s'.emitted bs with i := i', lit := l', p := p' } where
  codec := h.codec
  runs := h.runs
  runs' := h.runs'
  alone := h.alone
  alone' := h.alone'
  outCap := h.outCap
  n := h.n
  i := hi
  lit := hl
  p := hp
  o := congrArg (· + bs.length) h.o
  input := h.input
  output k hk := by
    change (s'.emitted bs).obufByte k = (s.emitted bs).obufByte k
    have hk : k < s.o + bs.length := hk
    have hw : WritesAt s (s.emitted bs) s.o bs := writesAt_of_writeFrom rfl rfl
    have hw' : WritesAt s' (s'.emitted bs) s.o bs := writesAt_of_writeFrom (by rw [← h.o]; rfl) rfl
    by_cases hko : k < s.o
    · rw [hw.2 k (.inl hko), hw'.2 k (.inl hko), h.output k hko]
    · obtain ⟨j, rfl⟩ := Nat.exists_eq_add_of_le (Nat.not_lt.mp hko)
      have hj : bs[j]? = some (bs[j]'(by omega)) := List.getElem?_eq_getElem _
      rw [hw.1 j _ hj, hw'.1 j _ hj]

theorem CodecAlike.complete : EndsAlike w s.complete s'.complete := by
  have hop : s.op = w := h.runs.2.2
  have hop' : s'.op = w := h.runs'.2.2
  have hlen : s'.complete.outLen = s.complete.outLen := by simp [hop, hop', h.codec, h.o]
  have hw : ¬ (w = codeToU8 ∨ w = codeToS8) := not_converter_of_codec h.codec
  refine ⟨s.complete_busy, rfl, fun hc => absurd hc hw, fun _ _ => hlen, fun _ _ => ?_⟩
  rw [hlen]
  refine List.map_congr_left fun k hk => h.output k ?_
  have hk : k < s.o % 2 ^ 32 := by simpa [hop, h.codec] using hk
  exact Nat.lt_of_lt_of_le hk (Nat.mod_le _ _)

/-- Both runs end with the same error, whatever the count and the literals are then. -/
theorem CodecAlike.lost (e : ErrCode) {o o' : Nat} {l l' : List Byte} :
    EndsAlike w { s.lost (statusError e) with o := o, lit := l } { s'.lost (statusError e) with o := o', lit := l' } :=
  .of_error e (not_converter_of_codec h.codec) rfl rfl rfl rfl

/-! ### One RUN step of each unit -/

theorem CodecAlike.execLit (c : Int) : StepsAlike w (execLit c s) (execLit c s') := by
  rw [execLit_eq, execLit_eq, h.n, h.p, h.inputRange]
  simp only [h.fits]
  split
  · exact .ends (h.lost .corruptData)
  · split
    · exact .faults _
    · next bs _ =>
      split
      · exact .goesOn (h.emitted bs h.lit h.i rfl)
      · exact .ends (h.lost .outOverflow)

theorem CodecAlike.execRep (c : Int) : StepsAlike w (execRep c s) (execRep c s') := by
  rw [execRep_eq, execRep_eq, h.n, h.p, h.input]
  simp only [h.fits]
  split
  · exact .ends (h.lost .corruptData)
  · split
    · exact .faults _
    · split
      · exact .goesOn (h.emitted _ h.lit h.i rfl)
      · exact .ends (h.lost .outOverflow)

theorem CodecAlike.execDecode : StepsAlike w (execDecode s) (execDecode s') := by
  unfold Machine.execDecode
  rw [h.n, h.p, h.input]
  split
  · exact .ends h.complete
  · split
    · exact .faults _
    · split
      · exact .goesOn (h.emitted [] h.lit h.i (congrArg (· + 1) h.p))
      · split
        · exact h.execLit _
        · exact h.execRep _

theorem CodecAlike.encodeLast (v : Byte) : StepsAlike w (endStep (s.encodeLast v)) (endStep (s'.encodeLast v)) := by
  rw [State.encodeLast_eq, State.encodeLast_eq, h.lit, h.i]
  simp only [h.fits]
  split
  · exact .goesOn (h.emitted _ rfl rfl h.p)
  · exact .ends (h.lost .outOverflow)

theorem CodecAlike.encodeDifferent (v : Byte) :
    StepsAlike w (endStep (s.encodeDifferent v)) (endStep (s'.encodeDifferent v)) := by
  rw [State.encodeDifferent_eq, State.encodeDifferent_eq, h.lit, h.i]
  simp only [h.fits]
  split
  · split
    · exact .goesOn (h.emitted _ rfl rfl h.p)
    · exact .ends (h.lost .outOverflow)
  · exact .goesOn (h.emitted [] rfl rfl h.p)

theorem CodecAlike.encodeEqual (v : Byte) :
    StepsAlike w (endStep (s.encodeEqual v)) (endStep (s'.encodeEqual v)) := by
  have hcases := s'.encodeEqual_cases v
  rw [h.o, h.outCap, h.i, h.runBytes, h.runLength] at hcases
  rcases s.encodeEqual_cases v with ⟨hfit, he⟩ | ⟨hover, l, he⟩
  · obtain ⟨_, he'⟩ := hcases.resolve_right (by omega)
    rw [he, he']
    exact .goesOn (h.emitted _ rfl rfl h.p)
  · obtain ⟨_, l', he'⟩ := hcases.resolve_left (by omega)
    rw [he, he']
    exact .ends (h.lost .outOverflow)

theorem CodecAlike.execEncode : StepsAlike w (execEncode s) (execEncode s') := by
  unfold Machine.execEncode
  rw [h.n, h.i, h.input, h.input]
  split
  · exact .ends h.complete
  · split
    · exact .faults _
    · split
      · exact h.encodeLast _
      · split
        · exact .faults _
        · split
          · exact h.encodeDifferent _
          · exact h.encodeEqual _

theorem CodecAlike.step : StepsAlike w (step s) (step s') := by
  rw [step_codec h.codec h.runs h.alone, step_codec h.codec h.runs' h.alone']
  unfold codecStep
  split
  · exact h.execEncode
  · exact h.execDecode

end

/-- Where one of two runs alike ends, the other ends after as many steps, alike. -/
theorem CodecAlike.ends {w : Word} {s s' t : State} {m : Nat} (h : CodecAlike w s s') (he : EndsIn s m t) :
    ∃ t', EndsIn s' m t' ∧ EndsAlike w t t' := by
  induction he generalizing s' with
  | ended ht => simp [State.busy_of_accepted h.runs.1] at ht
  | more _ hu he ih =>
    have hb' : s'.busy = true := State.busy_of_accepted h.runs'.1
    have hstep := h.step
    rw [hu] at hstep
    generalize hr : Machine.step s' = r at hstep
    cases hstep with
    | goesOn hgo =>
      obtain ⟨t', he', hend⟩ := ih hgo
      exact ⟨t', .more hb' hr he', hend⟩
    | ends hend =>
      cases he with
      | ended => exact ⟨_, .more hb' hr (.ended (by rw [State.busy, hend.status]; exact hend.idle)), hend⟩
      | more hb => simp [hend.idle] at hb

/-! ### From the write of CMD -/

/-- What two idle states must share for a command to give the same results. -/
structure InputsAgree (s s' : State) : Prop where
  inCap : s'.platform.inCap = s.platform.inCap
  outCap : s'.platform.outCap = s.platform.outCap
  inLen : s'.inLen = s.inLen
  rawSeq : s'.rawSeq = s.rawSeq
  convIn : s'.convIn = s.convIn

theorem InputsAgree.ibufByte {s s' : State} (h : InputsAgree s s') {k : Nat} (hk : k < s.inLen.toNat) :
    s'.ibufByte k = s.ibufByte k := by
  have hraw := h.rawSeq
  rw [State.rawSeq, State.rawSeq, h.inLen] at hraw
  exact List.map_inj_left.mp hraw k (List.mem_range.mpr hk)

/-- Past CHECK, two codec commands on the same inputs are alike. -/
theorem InputsAgree.codecAlike {s s' : State} {w : Word} (h : InputsAgree s s') (hc : isCodecCommand w = true) :
    CodecAlike w (s.checked w) (s'.checked w) where
  codec := hc
  runs := ⟨rfl, rfl, rfl⟩
  runs' := ⟨rfl, rfl, rfl⟩
  alone := rfl
  alone' := rfl
  outCap := h.outCap
  n := h.inLen
  i := rfl
  lit := rfl
  p := rfl
  o := rfl
  input k := by
    unfold State.input?
    by_cases hk : k < s.inLen.toNat
    · simp [hk, h.inLen, h.inCap, h.ibufByte hk]
    · simp [hk, h.inLen]
  output k hk := absurd hk (Nat.not_lt_zero k)

/-- Two commands that CHECK refuses for the same reason end alike. -/
theorem State.begun_refused_alike {s s' : State} {w : Word} {e : ErrCode} (hw : ¬ (w = codeToU8 ∨ w = codeToS8))
    (h : checkStep (s.begun w) = (s.begun w).raiseErr e) (h' : checkStep (s'.begun w) = (s'.begun w).raiseErr e) :
    ∃ m t t', EndsIn (s.begun w) m t ∧ EndsIn (s'.begun w) m t' ∧ EndsAlike w t t' :=
  ⟨1, _, _, State.begun_refused h, State.begun_refused h', .of_error e hw (by simp) (by simp) (by simp) (by simp)⟩

theorem InputsAgree.codec_ends {s s' : State} {w : Word} (h : InputsAgree s s') (hc : isCodecCommand w = true) :
    ∃ m t t', EndsIn (s.begun w) m t ∧ EndsIn (s'.begun w) m t' ∧ EndsAlike w t t' := by
  by_cases hf : s.inLen.toNat ≤ s.platform.inCap
  · obtain ⟨m, t, _, he⟩ := (State.begun_codecRuns hc hf).ends
    obtain ⟨t', he', hend⟩ := (h.codecAlike hc).ends he
    have hf' : s'.inLen.toNat ≤ s'.platform.inCap := by rwa [h.inLen, h.inCap]
    have hcheck : checkStep (s.begun w) = s.checked w := checkStep_codec hc hf
    have hcheck' : checkStep (s'.begun w) = s'.checked w := checkStep_codec hc hf'
    exact ⟨m + 1, t, t', .more (s.begun_busy w) (hcheck ▸ step_begun s w) he,
      .more (s'.begun_busy w) (hcheck' ▸ step_begun s' w) he', hend⟩
  · have hf : s.platform.inCap < s.inLen.toNat := Nat.not_le.mp hf
    have hf' : s'.platform.inCap < s'.inLen.toNat := by rwa [h.inLen, h.inCap]
    exact State.begun_refused_alike (not_converter_of_codec hc) (checkStep_lenRange hc hf) (checkStep_lenRange hc hf')

theorem InputsAgree.converter_ends {s s' : State} {w : Word} (h : InputsAgree s s')
    (hw : w = codeToU8 ∨ w = codeToS8) :
    ∃ m t t', EndsIn (s.begun w) m t ∧ EndsIn (s'.begun w) m t' ∧ EndsAlike w t t' :=
  ⟨2, _, _, s.begun_converts hw, s'.begun_converts hw,
    { idle := State.complete_busy _
      status := rfl
      convOut := fun _ => congrArg (converted w) h.convIn
      outLen := fun h8 hs => absurd hw (by simp [h8, hs])
      output := fun hc => absurd hw (not_converter_of_codec hc) }⟩

/-- Every word, legal or not, ends alike on the same inputs. -/
theorem InputsAgree.ends {s s' : State} (w : Word) (h : InputsAgree s s') :
    ∃ m t t', EndsIn (s.begun w) m t ∧ EndsIn (s'.begun w) m t' ∧ EndsAlike w t t' := by
  by_cases hw : w = codeToU8 ∨ w = codeToS8
  · exact h.converter_ends hw
  · cases hc : isCodecCommand w with
    | true => exact h.codec_ends hc
    | false =>
      have hill : decodeCommand w = .error (.illegalCommand w) :=
        decodeCommand_illegal hc (fun e => hw (.inl e)) fun e => hw (.inr e)
      exact State.begun_refused_alike hw (checkStep_illegal hill) (checkStep_illegal hill)

/-- Settles O60, by a simulation between two runs on the same inputs: the words CHECK refuses and the converter commands
end in explicit states, and the codec commands stay alike step by step until the first of them ends. -/
theorem resultsDependOnlyOnTheInputs : Obligations.ResultsDependOnlyOnTheInputs := by
  unfold Obligations.ResultsDependOnlyOnTheInputs
  intro s s' w _ hb hb' hc hc' hin hout hlen hraw hconv
  obtain ⟨m, t, t', he, he', hend⟩ := InputsAgree.ends w ⟨hin, hout, hlen, hraw, hconv⟩
  exact ⟨m + 1, t, t', he.endsAt (step_commanded hb hc) (s.begun_busy w),
    he'.endsAt (step_commanded hb' hc') (s'.begun_busy w), hend.status, hend.convOut, hend.outLen, hend.output⟩

end Sys2Proof.Machine
end

section
/-! What one step can do, by the event it takes, and what a host access can do, by the location it names (spec/40 R110,
R111; spec/20 R53 to R55). -/

namespace Sys2Proof.Machine

/-! ### The event of a step -/

/-- A step is a turn of the block, an access of the host, a read of `POLL` or a reset. -/
theorem step_cases {s t : State} (h : step s = .next t) :
    (∃ rest, (s.schedule = [] ∧ rest = [] ∨ s.schedule = .blockTurn :: rest) ∧
      perform (blockAction { s with schedule := rest }) = .next t) ∨
    (∃ op rest, s.schedule = .host op :: rest ∧ hostAccess op { s with schedule := rest } = .next t) ∨
    (∃ rest, s.schedule = .poll :: rest ∧ t = pollStatus { s with schedule := rest }) ∨
    (∃ rest, s.schedule = .reset :: rest ∧ t = State.assertReset { s with schedule := rest }) := by
  match hs : s.schedule with
  | [] =>
    have hsame : { s with schedule := [] } = s := by rw [← hs]
    exact .inl ⟨[], .inl ⟨rfl, rfl⟩, hsame ▸ (step_unscheduled hs).symm.trans h⟩
  | .blockTurn :: rest => exact .inl ⟨rest, .inr rfl, (step_blockTurn hs).symm.trans h⟩
  | .host op :: rest => exact .inr (.inl ⟨op, rest, rfl, (step_host hs).symm.trans h⟩)
  | .poll :: rest =>
    rw [step_poll hs] at h
    cases h
    exact .inr (.inr (.inl ⟨rest, rfl, rfl⟩))
  | .reset :: rest =>
    rw [step_reset hs] at h
    cases h
    exact .inr (.inr (.inr ⟨rest, rfl, rfl⟩))

/-! ### The location of an access -/

theorem registerAt_eq_cmd {offset : Nat} (h : registerAt offset = .ok .cmd) : offset = 0 := by
  by_contra hne
  simp [registerAt, hne, ite_eq_iff] at h

theorem registerAt_ne_ibuf (offset k : Nat) : registerAt offset ≠ .ok (.ibuf k) := by
  simp [registerAt, ite_eq_iff]

/-- CMD is one aligned word of the register window. -/
theorem locate_eq_cmd {P : Platform} {space : Space} {offset width : Nat}
    (h : locate P space offset width = .ok .cmd) : space = .reg ∧ offset = 0 ∧ width = 32 := by
  cases space with
  | reg =>
    obtain ⟨hw, _, hr⟩ : width = 32 ∧ offset % 4 = 0 ∧ registerAt offset = .ok .cmd := by
      simpa [locate, ite_eq_iff] using h
    exact ⟨rfl, registerAt_eq_cmd hr, hw⟩
  | ibuf | obuf => simp [locate, ite_eq_iff] at h

/-- A byte of IBUF is named by its index, below IN_CAP. -/
theorem locate_eq_ibuf {P : Platform} {space : Space} {offset width k : Nat}
    (h : locate P space offset width = .ok (.ibuf k)) : k < P.inCap := by
  cases space with
  | reg => simp [locate, ite_eq_iff, registerAt_ne_ibuf] at h
  | ibuf =>
    obtain ⟨_, hlt, rfl⟩ : width = 8 ∧ offset < P.inCap ∧ offset = k := by simpa [locate, ite_eq_iff] using h
    exact hlt
  | obuf => simp [locate, ite_eq_iff] at h

/-- The access is a write of `v` to the location `loc`, by offset or by bus address. -/
inductive HostOp.Writes (P : Platform) (loc : Location) (v : Word) : HostOp → Prop
  | byOffset {space : Space} {offset width : Nat} (hl : locate P space offset width = .ok loc) :
      Writes P loc v (.write space offset width v)
  | byAddress {space : Space} {offset address width : Nat} (hp : placeOf P address = some (space, offset))
      (hl : locate P space offset width = .ok loc) : Writes P loc v (.writeAt address width v)

theorem HostOp.Writes.ibuf_lt {P : Platform} {k : Nat} {v : Word} {op : HostOp} (h : op.Writes P (.ibuf k) v) :
    k < P.inCap := by
  cases h with
  | byOffset hl => exact locate_eq_ibuf hl
  | byAddress _ hl => exact locate_eq_ibuf hl

/-- A write of CMD is the one at offset 0 of the register window, or the one at an address placed there. -/
theorem HostOp.Writes.cmd {P : Platform} {v : Word} {op : HostOp} (h : op.Writes P .cmd v) :
    op = .write .reg 0x00 32 v ∨ ∃ a, op = .writeAt a 32 v ∧ placeOf P a = some (.reg, 0) := by
  cases h with
  | byOffset hl =>
    obtain ⟨rfl, rfl, rfl⟩ := locate_eq_cmd hl
    exact .inl rfl
  | byAddress hp hl =>
    obtain ⟨rfl, rfl, rfl⟩ := locate_eq_cmd hl
    exact .inr ⟨_, rfl, hp⟩

/-- An access that is not refused reads its location or writes it. -/
theorem hostAccess_cases {op : HostOp} {s t : State} (h : hostAccess op s = .next t) :
    (∃ loc, t = hostRead loc s) ∨ ∃ loc v, op.Writes s.platform loc v ∧ t = hostWrite loc v s := by
  cases op with
  | write space offset width v =>
    simp only [hostAccess] at h
    split at h
    · next loc hl => cases h; exact .inr ⟨loc, v, .byOffset hl, rfl⟩
    · cases h
  | read space offset width =>
    simp only [hostAccess] at h
    split at h
    · next loc _ => cases h; exact .inl ⟨loc, rfl⟩
    · cases h
  | writeAt address width v =>
    simp only [hostAccess, locateAddress] at h
    split at h
    · next loc hl =>
      cases h
      split at hl
      · next hp => exact .inr ⟨loc, v, .byAddress hp hl, rfl⟩
      · cases hl
    · cases h
  | readAt address width =>
    simp only [hostAccess] at h
    split at h
    · next loc _ => cases h; exact .inl ⟨loc, rfl⟩
    · cases h

/-! ### What a write of the host does -/

/-- A write by offset, at the location it names. -/
theorem step_write {s : State} {space : Space} {offset width : Nat} {v : Word} {loc : Location} {rest : List Event}
    (hs : s.schedule = .host (.write space offset width v) :: rest)
    (hl : locate s.platform space offset width = .ok loc) :
    step s = .next (hostWrite loc v { s with schedule := rest }) := by
  rw [step_host hs]
  simp only [hostAccess, hl]

theorem hostWrite_busy {s : State} (hb : s.busy = true) (loc : Location) (v : Word) : hostWrite loc v s = s := by
  cases loc <;> simp [hostWrite, hb]

theorem hostWrite_cmd {s : State} (hb : s.busy = false) (v : Word) : hostWrite .cmd v s = s.accept v := by
  simp [hostWrite, hb]

theorem hostWrite_inLen {s : State} (hb : s.busy = false) (v : Word) :
    hostWrite .inLen v s = { s with inLen := v } := by simp [hostWrite, hb]

theorem hostWrite_convIn {s : State} (hb : s.busy = false) (v : Word) :
    hostWrite .convIn v s = { s with convIn := v } := by simp [hostWrite, hb]

theorem hostWrite_ibuf {s : State} (hb : s.busy = false) (k : Nat) (v : Word) :
    hostWrite (.ibuf k) v s = { s with ibuf := s.ibuf.write k (lowByte v) } := by simp [hostWrite, hb]

/-- Only a write of CMD changes STATUS. -/
theorem hostWrite_status {loc : Location} (hl : loc ≠ .cmd) (v : Word) (s : State) :
    (hostWrite loc v s).status = s.status := by
  cases hb : s.busy with
  | true => rw [hostWrite_busy hb]
  | false =>
    cases loc with
    | cmd => exact absurd rfl hl
    | inLen => rw [hostWrite_inLen hb]
    | convIn => rw [hostWrite_convIn hb]
    | ibuf k => rw [hostWrite_ibuf hb]
    | status | outLen | convOut | obuf => rfl

/-- `IBUF` after a store at index `k`. -/
theorem State.ibufByte_write (s : State) (k a : Nat) (b : Byte) :
    ({ s with ibuf := s.ibuf.write k b } : State).ibufByte a = if a = k then b else s.ibufByte a := by
  simp only [State.ibufByte, Memory.read?_write]
  split <;> rfl

end Sys2Proof.Machine
end

section
/-! The invariant is kept: by what the host does, by CHECK, and by each RUN step (spec/10 R23 to R35, spec/93 S16). -/

namespace Sys2Proof.Machine

/-! ### Outside a running command -/

/-- The host's own fields are no part of the invariant, and more draws keep it. -/
theorem Inv.hostFields {s : State} (h : Inv s) (events : List Event) (received : List BusData) {draws : Nat}
    (hd : s.draws ≤ draws) : Inv { s with schedule := events, received := received, draws := draws } where
  platform := h.platform
  status := h.status
  outLen := h.outLen
  convOut := h.convOut
  ibuf := h.ibuf
  obuf := h.obuf
  draws := ⟨Nat.lt_of_lt_of_le h.draws.1 hd, Nat.lt_of_lt_of_le h.draws.2 hd⟩
  running := fun hb =>
    let r := h.running hb
    ⟨r.latched, r.start, r.checked, r.cursors, r.literals, r.pending, r.drained⟩

theorem Inv.scheduled {s : State} (h : Inv s) (events : List Event) : Inv { s with schedule := events } :=
  h.hostFields events s.received (Nat.le_refl _)

theorem Inv.hostRead {s : State} (h : Inv s) (loc : Location) : Inv (hostRead loc s) :=
  h.hostFields s.schedule _ (by split <;> omega)

theorem Inv.pollStatus {s : State} (h : Inv s) : Inv (pollStatus s) := by
  rw [pollStatus_frame]
  exact h.hostFields _ _ (Nat.le_refl _)

/-- Acceptance starts a command with both cursors at 0 and nothing pending. -/
theorem Inv.accept {s : State} (h : Inv s) (w : Word) : Inv (s.accept w) where
  platform := h.platform
  status := by simp [statusAccepted, legalStatus]
  outLen := h.outLen
  convOut := h.convOut
  ibuf := h.ibuf
  obuf := h.obuf
  draws := h.draws
  running := fun _ =>
    { latched := rfl
      start := fun _ => ⟨rfl, rfl, rfl, rfl⟩
      checked := fun hp => nomatch hp
      cursors := ⟨Nat.zero_le _, Nat.zero_le _, Nat.zero_le _⟩
      literals := Nat.zero_le _
      pending := ⟨Nat.le_refl _, by simp⟩
      drained := fun _ => rfl }

/-- While the block is idle, IN_LEN and CONV_IN may take any value, and IBUF any contents within its capacity. -/
theorem Inv.idleStore {s : State} (h : Inv s) (hb : s.busy = false) (inLen convIn : Word) {ibuf : Memory}
    (hm : ibuf.wf ∧ ∀ c ∈ ibuf, c.1 < s.platform.inCap) :
    Inv { s with inLen := inLen, convIn := convIn, ibuf := ibuf } where
  platform := h.platform
  status := h.status
  outLen := h.outLen
  convOut := h.convOut
  ibuf := hm
  obuf := h.obuf
  draws := h.draws
  running := fun hb' => nomatch hb.symm.trans hb'

theorem Inv.hostWrite {s : State} {loc : Location} {v : Word} {op : HostOp} (h : Inv s)
    (hw : op.Writes s.platform loc v) : Inv (hostWrite loc v s) := by
  cases hb : s.busy with
  | true => rw [hostWrite_busy hb]; exact h
  | false =>
    cases loc with
    | cmd => rw [hostWrite_cmd hb]; exact h.accept v
    | inLen => rw [hostWrite_inLen hb]; exact h.idleStore hb v s.convIn h.ibuf
    | convIn => rw [hostWrite_convIn hb]; exact h.idleStore hb s.inLen v h.ibuf
    | ibuf k =>
      rw [hostWrite_ibuf hb]
      refine h.idleStore hb s.inLen s.convIn ⟨Memory.wf_write k _ h.ibuf.1, fun c hc => ?_⟩
      rcases Memory.mem_write hc with rfl | hc
      · exact hw.ibuf_lt
      · exact h.ibuf.2 c hc
    | status | outLen | convOut | obuf => exact h

theorem Inv.hostAccess {s t : State} {op : HostOp} (h : Inv s) (ht : hostAccess op s = .next t) : Inv t := by
  rcases hostAccess_cases ht with ⟨loc, rfl⟩ | ⟨loc, v, hw, rfl⟩
  · exact h.hostRead loc
  · exact h.hostWrite hw

theorem Inv.assertReset {s : State} (h : Inv s) : Inv s.assertReset where
  platform := h.platform
  status := by simp [legalStatus]
  outLen := Nat.zero_le _
  convOut := ⟨0, by simp⟩
  ibuf := ⟨.nil, by simp⟩
  obuf := ⟨.nil, by simp⟩
  draws := ⟨by simp, by simp⟩
  running := fun hb => absurd hb (by simp [State.busy, statusBUSY])

/-! ### CHECK -/

theorem Inv.raiseErr {s : State} (h : Inv s) (e : ErrCode) : Inv (s.raiseErr e) where
  platform := by rw [State.raiseErr_platform]; exact h.platform
  status := by cases e <;> simp [legalStatus]
  outLen := by simp
  convOut := by rw [State.raiseErr_convOut]; exact h.convOut
  ibuf := by rw [State.raiseErr_ibuf, State.raiseErr_platform]; exact h.ibuf
  obuf := by
    rw [State.raiseErr_obuf, State.raiseErr_platform]
    split
    · exact ⟨.nil, by simp⟩
    · exact h.obuf
  draws := by
    obtain ⟨hi, ho⟩ := h.draws
    simp only [State.raiseErr_ibufDraw, State.raiseErr_obufDraw, State.raiseErr_draws]
    split <;> omega
  running := fun hb => by simp at hb

/-- Past CHECK, the command is legal and its input fits. -/
theorem Inv.checkStep {s : State} (h : Inv s) (hb : s.busy = true) : Inv (checkStep s) := by
  rcases checkStep_cases s with ⟨_, he⟩ | ⟨_, _, _, he⟩ | ⟨⟨i, hi⟩, hf, he⟩
  · rw [he]; exact h.raiseErr .illegalCmd
  · rw [he]; exact h.raiseErr .lenRange
  · rw [he]
    obtain ⟨latched, -, -, cursors, literals, pending, drained⟩ := h.running hb
    exact
      { platform := h.platform, status := h.status, outLen := h.outLen, convOut := h.convOut, ibuf := h.ibuf
        obuf := h.obuf, draws := h.draws
        running := fun _ =>
          { latched, cursors, literals, pending, drained
            start := fun hp => nomatch hp
            checked := fun _ => ⟨by simp [hi], hf⟩ } }

/-! ### A RUN step that leaves the command running -/

/-- `l` is a literal buffer that the encoder may hold at the cursor `i` (spec/10 R33, spec/41 R140). -/
structure LiteralsAt (s : State) (i : Nat) (l : List Byte) : Prop where
  short : l.length ≤ 126
  behind : l.length ≤ i
  bytes : ∀ j b, l[j]? = some b → s.ibufByte (i - l.length + j) = b
  drained : i = s.n.toNat → l = []

theorem LiteralsAt.nil (s : State) (i : Nat) : LiteralsAt s i [] :=
  ⟨Nat.zero_le _, Nat.zero_le _, by simp, fun _ => rfl⟩

/-- The byte at the cursor joins the literals before it. -/
theorem LiteralsAt.snoc {s : State} {i : Nat} {l : List Byte} (h : LiteralsAt s i l) (hl : l.length + 1 ≠ 127)
    (hi : i + 1 ≠ s.n.toNat) : LiteralsAt s (i + 1) (l ++ [s.ibufByte i]) := by
  obtain ⟨short, behind, bytes, -⟩ := h
  have hlen : (l ++ [s.ibufByte i]).length = l.length + 1 := by simp
  refine ⟨by omega, by omega, fun j b hj => ?_, fun hn => absurd hn hi⟩
  rw [hlen, show i + 1 - (l.length + 1) = i - l.length by omega]
  rcases Nat.lt_trichotomy j l.length with hlt | rfl | hgt
  · exact bytes j b (by rwa [List.getElem?_append_left hlt] at hj)
  · rw [Nat.sub_add_cancel behind]
    simpa using hj
  · rw [List.getElem?_eq_none (by omega)] at hj
    cases hj

theorem Running.literalsAt {s : State} (h : Running s) : LiteralsAt s s.i s.lit :=
  ⟨h.literals, h.pending.1, h.pending.2, h.drained⟩

/-- The command runs on soundly when what it emitted fits, its cursors stay inside the input, and its literal buffer is
one for the encoder's cursor. -/
theorem Running.goesOn {s : State} (h : Running s) (hp : s.phase = .run) {bs l : List Byte} {i p : Nat}
    (hf : s.fits bs) (hi : i ≤ s.n.toNat) (hpn : p ≤ s.n.toNat) (hl : LiteralsAt s i l) :
    Running { s.emitted bs with i := i, lit := l, p := p } where
  latched := h.latched
  start := fun hc => nomatch hp.symm.trans hc
  checked := h.checked
  cursors := by
    refine ⟨hi, hpn, ?_⟩
    rcases hf with rfl | hf
    · exact h.cursors.2.2
    · exact hf
  literals := hl.short
  pending := ⟨hl.behind, hl.bytes⟩
  drained := hl.drained

/-- A chunk that ends inside the input leaves the command running when its output fits, and ends it otherwise. -/
theorem Running.chunk {s : State} (h : Running s) (hp : s.phase = .run) {bs : List Byte} {p : Nat}
    (hpn : p ≤ s.n.toNat) (hb : (if s.fits bs then { s.emitted bs with p := p } else s.overflowed).busy = true) :
    Running (if s.fits bs then { s.emitted bs with p := p } else s.overflowed) := by
  split at hb
  · next hf =>
    rw [if_pos hf]
    exact h.goesOn hp hf h.cursors.1 hpn h.literalsAt
  · exact nomatch (s.lost_busy .outOverflow).symm.trans hb

theorem execLit_running {c : Int} {s t : State} (h : Running s) (hp : s.phase = .run) (ht : execLit c s = .next t)
    (hb : t.busy = true) : Running t := by
  rw [execLit_eq] at ht
  split at ht
  · cases ht; exact nomatch (s.lost_busy .corruptData).symm.trans hb
  · split at ht
    · cases ht
    · cases ht; exact h.chunk hp (by omega) hb

theorem execRep_running {c : Int} {s t : State} (h : Running s) (hp : s.phase = .run) (ht : execRep c s = .next t)
    (hb : t.busy = true) : Running t := by
  rw [execRep_eq] at ht
  split at ht
  · cases ht; exact nomatch (s.lost_busy .corruptData).symm.trans hb
  · split at ht
    · cases ht
    · cases ht; exact h.chunk hp (by omega) hb

theorem execDecode_running {s t : State} (h : Running s) (hp : s.phase = .run) (ht : execDecode s = .next t)
    (hb : t.busy = true) : Running t := by
  have hpn := h.cursors.2.1
  unfold execDecode at ht
  split at ht
  · cases ht; exact nomatch s.complete_busy.symm.trans hb
  · split at ht
    · cases ht
    · split at ht
      · cases ht
        exact h.goesOn hp (.inl rfl) h.cursors.1 (by omega) h.literalsAt
      · split at ht
        · exact execLit_running h hp ht hb
        · exact execRep_running h hp ht hb

/-- ENC_STEP empties the literal buffer, or adds to it a byte that is not the last of the input. -/
theorem execEncode_running {s t : State} (h : Running s) (hp : s.phase = .run) (hin : s.inputFits)
    (ht : execEncode s = .next t) (hb : t.busy = true) : Running t := by
  obtain ⟨hi, hpn, -⟩ := h.cursors
  have hover : ∀ l, ({ s.overflowed with lit := l } : State).busy = false := fun _ => s.lost_busy .outOverflow
  unfold execEncode at ht
  split at ht
  · cases ht; exact nomatch s.complete_busy.symm.trans hb
  · rw [State.input?_inside (by omega) hin] at ht
    simp only at ht
    split at ht
    · rw [State.encodeLast_eq] at ht
      split at ht
      · next hf => cases ht; exact h.goesOn hp hf (by omega) hpn (.nil s _)
      · cases ht; exact nomatch (hover _).symm.trans hb
    · next hlast =>
      rw [State.input?_inside (by omega) hin] at ht
      simp only at ht
      split at ht
      · rw [State.encodeDifferent_eq] at ht
        split at ht
        · split at ht
          · next hf => cases ht; exact h.goesOn hp hf (by omega) hpn (.nil s _)
          · cases ht; exact nomatch (hover _).symm.trans hb
        · next hfull =>
          cases ht
          exact h.goesOn hp (.inl rfl) (by omega) hpn (h.literalsAt.snoc hfull hlast)
      · rcases s.encodeEqual_cases (s.ibufByte s.i) with ⟨hf, he⟩ | ⟨_, l, he⟩
        · rw [he] at ht
          cases ht
          exact h.goesOn hp (.inr hf) (s.scanRun_inside _ 126 2 (by omega)) hpn (.nil s _)
        · rw [he] at ht
          cases ht
          exact nomatch (hover l).symm.trans hb

/-- A command past CHECK is of the codec or of the converter. -/
theorem Running.op_cases {s : State} (h : Running s) (hp : s.phase = .run) :
    (s.inputFits ∧ (s.op = codeEncode ∨ s.op = codeDecode)) ∨ s.op = codeToU8 ∨ s.op = codeToS8 := by
  obtain ⟨hlegal, hfits⟩ := h.checked hp
  cases hc : isCodecCommand s.op with
  | true => exact .inl ⟨hfits hc, by simpa [isCodecCommand] using hc⟩
  | false =>
    refine .inr ?_
    by_contra hne
    obtain ⟨h8, hs⟩ := not_or.mp hne
    exact hlegal (decodeCommand_illegal hc h8 hs)

/-- A RUN step keeps the internal state sound while the command runs on. -/
theorem Running.perform {s t : State} (h : Running s) (hs : s.busy = true) (hp : s.phase = .run)
    (ht : perform (blockAction s) = .next t) (hb : t.busy = true) : Running t := by
  rcases h.op_cases hp with ⟨hin, hop | hop⟩ | hconv
  · rw [perform_encode hs hp hop] at ht
    exact execEncode_running h hp hin ht hb
  · rw [perform_decode hs hp hop] at ht
    exact execDecode_running h hp ht hb
  · rw [perform_converter hs hp rfl hconv] at ht
    cases ht
    exact nomatch (State.complete_busy _).symm.trans hb

/-! ### Every step -/

/-- Bytes emitted within OUT_CAP keep OBUF's form and range. -/
theorem Inv.obuf_emitted {s : State} (h : Inv s) {bs : List Byte} (hf : s.fits bs) :
    (s.emitted bs).obuf.wf ∧ ∀ c ∈ (s.emitted bs).obuf, c.1 < s.platform.outCap := by
  refine ⟨Memory.wf_writeFrom bs s.o h.obuf.1, fun c hc => ?_⟩
  rcases hf with rfl | hf
  · exact h.obuf.2 c hc
  · rcases Memory.mem_writeFrom hc with hlt | hc
    · omega
    · exact h.obuf.2 c hc

/-- The count of a completed codec command is its OUT_LEN, so it must be within OUT_CAP. -/
theorem State.complete_outLen_le {s : State} (hl : s.outLen.toNat ≤ s.platform.outCap)
    (ho : s.o ≤ s.platform.outCap) : s.complete.outLen.toNat ≤ s.platform.outCap := by
  rw [State.complete_outLen]
  split
  · rw [BitVec.toNat_ofNat]
    exact Nat.le_trans (Nat.mod_le _ _) ho
  · exact hl

/-- A RUN step keeps the invariant, when it leaves a sound internal state behind. -/
theorem RunStep.inv {i : Instr} {s t : State} (h : RunStep i s t) (hs : Inv s) (ho : s.o ≤ s.platform.outCap)
    (hr : t.busy = true → Running t) : Inv t := by
  cases h with
  | goesOn bs l i' p' hf =>
    exact { hs with obuf := hs.obuf_emitted hf, running := hr }
  | completes v hv =>
    exact
      { platform := hs.platform
        status := by simp [statusCompleted, legalStatus]
        outLen := State.complete_outLen_le hs.outLen ho
        convOut := by
          rcases hv with rfl | ⟨_, hv⟩
          · exact hs.convOut
          · exact hv
        ibuf := hs.ibuf
        obuf := hs.obuf
        draws := hs.draws
        running := hr }
  | ends w o' l hw =>
    exact
      { platform := hs.platform
        status := by rcases hw with rfl | rfl <;> simp [legalStatus]
        outLen := Nat.zero_le _
        convOut := hs.convOut
        ibuf := hs.ibuf
        obuf := ⟨.nil, by simp⟩
        draws := ⟨Nat.lt_succ_of_lt hs.draws.1, Nat.lt_succ_self _⟩
        running := hr }

theorem Inv.blockTurn {s t : State} (h : Inv s) (ht : perform (blockAction s) = .next t) : Inv t := by
  rcases perform_cases s with ⟨_, hp⟩ | ⟨hb, _, hp⟩ | ⟨hb, hrun, i, _, hp⟩ | ⟨_, _, _, _, hp⟩ <;>
    have ht' := hp.symm.trans ht
  · cases ht'; exact h
  · cases ht'; exact h.checkStep hb
  · have hr := h.running hb
    exact (exec_runStep ht').inv h hr.cursors.2.2 (hr.perform hb hrun ht)
  · cases ht'

/-- Settles O52: by the event of the step. The host's accesses, `POLL` and reset keep the invariant by their frames;
the block's turn by the shape of the RUN step, with the internal state followed through each unit. -/
theorem everyStepKeepsTheInvariant : Obligations.EveryStepKeepsTheInvariant := by
  unfold Obligations.EveryStepKeepsTheInvariant
  intro s t h ht
  rcases step_cases ht with ⟨rest, _, ht⟩ | ⟨op, rest, _, ht⟩ | ⟨rest, _, rfl⟩ | ⟨rest, _, rfl⟩
  · exact (h.scheduled rest).blockTurn ht
  · exact (h.scheduled rest).hostAccess ht
  · exact (h.scheduled rest).pollStatus
  · exact (h.scheduled rest).assertReset

end Sys2Proof.Machine
end

section
/-! STATUS between commands and what the host stores while the block is idle (spec/10 R23, R24, R26,
R36; spec/40 R111; spec/60 R230). -/

namespace Sys2Proof.Machine

/-- Settles O50: of the steps of an idle block only the reset and the write of CMD set STATUS. -/
theorem resultCodeStaysUntilTheNextCommand : Obligations.ResultCodeStaysUntilTheNextCommand := by
  unfold Obligations.ResultCodeStaysUntilTheNextCommand
  intro s t hb ht
  rcases step_cases ht with ⟨rest, _, ht⟩ | ⟨op, rest, hs, ht⟩ | ⟨rest, _, rfl⟩ | ⟨rest, hs, rfl⟩
  · rw [perform_idle (s := { s with schedule := rest }) hb] at ht
    cases ht
    exact .inl rfl
  · rcases hostAccess_cases ht with ⟨loc, rfl⟩ | ⟨loc, v, hw, rfl⟩
    · exact .inl rfl
    · by_cases hl : loc = .cmd
      · subst hl
        refine .inr (.inr ⟨op, rest, hs, ?_, ?_⟩)
        · rw [hostWrite_cmd (s := { s with schedule := rest }) hb, State.accept_status]
        · rcases hw.cmd with rfl | ⟨a, rfl, hp⟩
          · exact .inl ⟨v, rfl⟩
          · exact .inr ⟨a, v, rfl, hp⟩
      · exact .inl (hostWrite_status hl v _)
  · rw [pollStatus_frame]
    exact .inl rfl
  · exact .inr (.inl ⟨rest, hs, rfl⟩)

/-- Settles O22: each write's location, and what a write does there. -/
theorem idleWritesStoreOnlyTheirLocation : Obligations.IdleWritesStoreOnlyTheirLocation := by
  unfold Obligations.IdleWritesStoreOnlyTheirLocation
  intro s v rest hb
  have hidle : ({ s with schedule := rest } : State).busy = false := hb
  refine ⟨fun hs => ?_, fun hs => ?_, fun k hk hs => ?_, fun offset ho hs => ?_, fun k hk hs => ?_⟩
  · rw [step_write (loc := .inLen) hs rfl, hostWrite_inLen hidle]
  · rw [step_write (loc := .convIn) hs rfl, hostWrite_convIn hidle]
  · have hl : locate s.platform .ibuf k 8 = .ok (.ibuf k) := by simp [locate, Nat.not_le.mpr hk]
    rw [step_write hs hl, hostWrite_ibuf hidle]
    refine ⟨_, rfl, rfl, ?_, fun a ha => ?_⟩
    · rw [State.ibufByte_write, if_pos rfl, BitVec.ofNat_toNat, lowByte]
    · rw [State.ibufByte_write, if_neg ha]
      rfl
  · rcases ho with rfl | rfl | rfl
    · exact step_write (loc := .status) hs rfl
    · exact step_write (loc := .outLen) hs rfl
    · exact step_write (loc := .convOut) hs rfl
  · have hl : locate s.platform .obuf k 8 = .ok (.obuf k) := by simp [locate, Nat.not_le.mpr hk]
    exact step_write hs hl

/-- The fields of each legal STATUS value. -/
theorem legalStatus_fields : ∀ w ∈ legalStatus,
    ¬ (statusBUSY w = true ∧ statusDONE w = true) ∧ (statusBUSY w = true → statusERR w = 0) ∧
    (statusERR w).toNat ≤ 4 ∧ w.extractLsb' 2 2 = 0 ∧ w.extractLsb' 8 24 = 0 := by
  simp only [legalStatus, List.forall_mem_cons, List.not_mem_nil, false_implies, implies_true, and_true]
  decide

/-- Settles O53: the invariant leaves STATUS seven values. -/
theorem statusFieldsAreConsistent : Obligations.StatusFieldsAreConsistent := by
  unfold Obligations.StatusFieldsAreConsistent
  intro s h
  exact legalStatus_fields s.status h.status

end Sys2Proof.Machine
end

section
/-! What a RUN step leaves unchanged, from its shape (spec/20 R58, R59; spec/10 R25, R27, R30). -/

namespace Sys2Proof.Machine

/-- A step that ends a command with an error leaves it neither running nor completed. -/
theorem not_success_of_error {w : Word} (hw : w = 0x12#32 ∨ w = 0x42#32) :
    statusBUSY w = false ∧ w ≠ statusAccepted ∧ w ≠ statusCompleted := by
  rcases hw with rfl | rfl <;> decide

/-- Only a converter command changes CONV_OUT. -/
theorem RunStep.convOut {i : Instr} {s t : State} (h : RunStep i s t) (h8 : i ≠ .toU8) (hs : i ≠ .toS8) :
    t.convOut = s.convOut := by
  cases h with
  | goesOn => rfl
  | completes v hv => exact hv.resolve_right fun hconv => hconv.1.elim h8 hs
  | ends => rfl

/-- OUT_LEN changes only when the command ends (spec/10 R25). -/
theorem RunStep.outLen_of_busy {i : Instr} {s t : State} (h : RunStep i s t) (hb : t.busy = true) :
    t.outLen = s.outLen := by
  cases h with
  | goesOn => rfl
  | completes => simp at hb
  | ends w _ _ hw => exact nomatch (not_success_of_error hw).1.symm.trans hb

/-- Whether the command runs on or ends, its inputs and the host's fields stay. -/
theorem RunStep.inputs {i : Instr} {s t : State} (h : RunStep i s t) :
    t.platform = s.platform ∧ t.inLen = s.inLen ∧ t.convIn = s.convIn ∧ t.op = s.op ∧ t.n = s.n ∧
    t.phase = s.phase ∧ t.schedule = s.schedule ∧ t.received = s.received ∧ ∀ k, t.ibufByte k = s.ibufByte k := by
  cases h <;> exact ⟨rfl, rfl, rfl, rfl, rfl, rfl, rfl, rfl, fun _ => rfl⟩

/-- Settles O47: read off the three shapes a RUN step can leave. -/
theorem runStepsKeepTheInputs : Obligations.RunStepsKeepTheInputs := by
  unfold Obligations.RunStepsKeepTheInputs
  intro i s t ht
  have h := exec_runStep ht
  obtain ⟨hplatform, hinLen, hconvIn, hop, hn, hphase, hschedule, hreceived, hibuf⟩ := h.inputs
  exact ⟨hplatform, hinLen, hconvIn, hop, hn, hphase, hschedule, hreceived, hibuf, h.convOut,
    fun hb => ⟨h.outLen_of_busy hb, (h.keeps_of_busy hb).1⟩⟩

/-- Bytes that fit leave the count within OUT_CAP. -/
theorem State.fits.count_le {s : State} {bs : List Byte} (hf : s.fits bs) (ho : s.o ≤ s.platform.outCap) :
    s.o + bs.length ≤ s.platform.outCap := by
  rcases hf with rfl | hf
  · exact ho
  · exact hf

theorem State.emitted_writesAt (s : State) (bs : List Byte) : WritesAt s (s.emitted bs) s.o bs :=
  writesAt_of_writeFrom rfl rfl

/-- Settles O48: a step that goes on stores the bytes it counts, from the count on; one that completes stores nothing;
the errors are excluded by STATUS. -/
theorem runStepsWriteObufOnlyFromTheCount : Obligations.RunStepsWriteObufOnlyFromTheCount := by
  unfold Obligations.RunStepsWriteObufOnlyFromTheCount
  intro i s t _ ho ht hst
  cases exec_runStep ht with
  | goesOn bs l i' p' hf hi hp =>
    exact ⟨Nat.le_add_right _ _, hf.count_le ho, hi, hp, (s.emitted_writesAt bs).2⟩
  | completes => exact ⟨Nat.le_refl _, ho, Nat.le_refl _, Nat.le_refl _, fun _ _ => rfl⟩
  | ends w _ _ hw =>
    obtain ⟨-, hrun, hdone⟩ := not_success_of_error hw
    exact (hst.elim hrun hdone).elim

end Sys2Proof.Machine
end

section
/-! Which accesses of the host name a location (spec/20 R50 to R55): those are the ones that get a meaning, and no step
faults. -/

namespace Sys2Proof.Machine

/-! ### An access gets a meaning when it names a location -/

/-- The location an access names, by offset or by bus address. -/
def HostOp.location (P : Platform) : HostOp → Except Refusal Location
  | .write space offset width _ => locate P space offset width
  | .read space offset width => locate P space offset width
  | .writeAt address width _ => locateAddress P address width
  | .readAt address width => locateAddress P address width

theorem hostAccess_located {op : HostOp} {s : State} {loc : Location} (h : op.location s.platform = .ok loc) :
    ∃ t, hostAccess op s = .next t := by
  cases op <;> simp only [HostOp.location] at h <;> simp [hostAccess, h]

theorem hostAccess_unlocated {op : HostOp} {s : State} {r : Refusal} (h : op.location s.platform = .error r) :
    hostAccess op s = .refused r := by
  cases op <;> simp only [HostOp.location] at h <;> simp only [hostAccess, h]

section
variable {s : State} {op : HostOp} {rest : List Event} (hs : s.schedule = .host op :: rest)
include hs

theorem step_located {loc : Location} (h : op.location s.platform = .ok loc) : ∃ t, step s = .next t := by
  rw [step_host hs]
  exact hostAccess_located h

theorem step_unlocated {r : Refusal} (h : op.location s.platform = .error r) : step s = .refused r := by
  rw [step_host hs]
  exact hostAccess_unlocated h

end

/-- Writes and reads by offset name the same location. -/
theorem HostOp.location_byOffset {P : Platform} {space : Space} {offset width : Nat} {v : Word} {op : HostOp}
    (h : op = .write space offset width v ∨ op = .read space offset width) :
    op.location P = locate P space offset width := by
  rcases h with rfl | rfl <;> rfl

/-! ### Accesses by offset -/

/-- The window holds a register at each multiple of 4 below 0x18 (spec/10 R21). -/
theorem registerAt_inside {offset : Nat} (h4 : offset % 4 = 0) (hlt : offset < 0x18) :
    ∃ loc, registerAt offset = .ok loc := by
  obtain rfl | rfl | rfl | rfl | rfl | rfl : offset = 0x00 ∨ offset = 0x04 ∨ offset = 0x08 ∨ offset = 0x0C ∨
    offset = 0x10 ∨ offset = 0x14 := by omega
  all_goals exact ⟨_, rfl⟩

theorem registerAt_outside {offset : Nat} (h : 0x18 ≤ offset) : registerAt offset = .error .registerOffset := by
  unfold registerAt
  iterate 6 rw [if_neg (by omega)]

theorem locate_register {P : Platform} {offset width : Nat} (hw : width = 32) (h4 : offset % 4 = 0)
    (hlt : offset < 0x18) : ∃ loc, locate P .reg offset width = .ok loc := by
  simpa [locate, hw, h4] using registerAt_inside h4 hlt

theorem locate_register_refused {P : Platform} {offset width : Nat}
    (h : width ≠ 32 ∨ offset % 4 ≠ 0 ∨ 0x18 ≤ offset) : ∃ r, locate P .reg offset width = .error r := by
  simp only [locate]
  split
  · exact ⟨_, rfl⟩
  · split
    · exact ⟨_, rfl⟩
    · exact ⟨_, registerAt_outside (by omega)⟩

/-- What an access of a buffer of capacity `cap` names (spec/20 R54, R55). -/
theorem locate_buffer {P : Platform} {space : Space} {cap : Nat} (offset width : Nat)
    (h : space = .ibuf ∧ cap = P.inCap ∨ space = .obuf ∧ cap = P.outCap) :
    ∃ loc, locate P space offset width =
      if width ≠ 8 then .error .bufferWidth else if cap ≤ offset then .error .bufferIndex else .ok loc := by
  rcases h with ⟨rfl, rfl⟩ | ⟨rfl, rfl⟩ <;> exact ⟨_, rfl⟩

/-- Settles O25: the location of a register access. -/
theorem registerAccessesMustBeAlignedWords : Obligations.RegisterAccessesMustBeAlignedWords := by
  unfold Obligations.RegisterAccessesMustBeAlignedWords
  intro s offset width v rest op hs hop
  have hloc := HostOp.location_byOffset (P := s.platform) hop
  refine ⟨fun hw h4 hlt => ?_, fun hbad => ?_⟩
  · obtain ⟨_, hl⟩ := locate_register hw h4 hlt
    exact step_located hs (hloc.trans hl)
  · obtain ⟨r, hl⟩ := locate_register_refused hbad
    exact ⟨r, step_unlocated hs (hloc.trans hl)⟩

/-- Settles O26: the location of a buffer access. -/
theorem bufferAccessesMustBeBytesInRange : Obligations.BufferAccessesMustBeBytesInRange := by
  unfold Obligations.BufferAccessesMustBeBytesInRange
  intro s space offset width cap v rest op hspace hs hop
  obtain ⟨loc, hl⟩ := locate_buffer offset width hspace
  rw [← HostOp.location_byOffset hop] at hl
  refine ⟨fun hw hlt => ?_, fun hw => ?_, fun hw hle => ?_⟩
  · rw [if_neg (not_not.mpr hw), if_neg (Nat.not_le.mpr hlt)] at hl
    exact step_located hs hl
  · rw [if_pos hw] at hl
    exact step_unlocated hs hl
  · rw [if_neg (not_not.mpr hw), if_pos hle] at hl
    exact step_unlocated hs hl

/-! ### Accesses by bus address -/

/-- On a legal platform an address lies in at most one space (spec/00 R8). -/
theorem placeOf_eq_some {P : Platform} (hP : P.wf) (space : Space) (a k : Nat) :
    placeOf P a = some (space, k) ↔
      match space with
      | .reg => a = P.regBase + k ∧ k < 0x18
      | .ibuf => a = P.ibufBase + k ∧ k < P.inCap
      | .obuf => a = P.obufBase + k ∧ k < P.outCap := by
  obtain ⟨_, _, _, _, hri, hro, hio⟩ := hP
  unfold placeOf
  cases space with
  | reg | ibuf | obuf =>
    simp only
    split_ifs <;> simp <;> omega

theorem locateAddress_placed {P : Platform} {a k : Nat} {space : Space} (h : placeOf P a = some (space, k))
    (width : Nat) : locateAddress P a width = locate P space k width := by simp only [locateAddress, h]

theorem locateAddress_unplaced {P : Platform} {a : Nat} (h : placeOf P a = none) (width : Nat) :
    locateAddress P a width = .error .addressOutside := by simp only [locateAddress, h]

/-- Settles O27: an address is placed in exactly the space it lies in, and an access by address goes to its place. -/
theorem busAddressesReachTheirSpace : Obligations.BusAddressesReachTheirSpace := by
  unfold Obligations.BusAddressesReachTheirSpace
  intro P hP
  have hplace := placeOf_eq_some hP
  refine ⟨fun k hk => (hplace .reg _ k).mpr ⟨rfl, hk⟩, fun k hk => (hplace .ibuf _ k).mpr ⟨rfl, hk⟩,
    fun k hk => (hplace .obuf _ k).mpr ⟨rfl, hk⟩, ?_, ?_⟩
  · rintro a s width v rest rfl ha
    have hout := locateAddress_unplaced ha width
    exact ⟨step_unlocated (op := .writeAt a width v) rfl hout, step_unlocated (op := .readAt a width) rfl hout⟩
  · intro a space k ha
    refine ⟨?_, ?_, ?_, ?_⟩
    · rintro rfl; exact (hplace .reg a k).mp ha
    · rintro rfl; exact (hplace .ibuf a k).mp ha
    · rintro rfl; exact (hplace .obuf a k).mp ha
    · rintro s width v rest rfl
      constructor <;>
      · rw [step_host rfl, step_host rfl]
        simp only [hostAccess, locateAddress_placed ha]

/-! ### No fault -/

/-- A running command past CHECK always has a step: its unit reads only inside the input (spec/20 R55, R58). -/
theorem Running.steps {s : State} (h : Running s) (hs : s.busy = true) (hp : s.phase = .run) :
    ∃ t, Machine.perform (blockAction s) = .next t := by
  rcases h.op_cases hp with ⟨hin, hop | hop⟩ | hconv
  · rw [perform_encode hs hp hop]
    exact (execEncode_advances hin h.cursors.1).imp fun _ ht => ht.1
  · rw [perform_decode hs hp hop]
    exact (execDecode_advances hin h.cursors.2.1).imp fun _ ht => ht.1
  · exact ⟨_, perform_converter hs hp rfl hconv⟩

/-- The block's turn always answers a next state. -/
theorem Inv.blockTurn_steps {s : State} (h : Inv s) : ∃ t, perform (blockAction s) = .next t := by
  cases hb : s.busy with
  | false => exact ⟨_, perform_idle hb⟩
  | true =>
    cases hp : s.phase with
    | check => exact ⟨_, perform_check hb hp⟩
    | run => exact (h.running hb).steps hb hp

/-- A step goes on, or it is refused: it is then an access that names no location. -/
theorem Inv.step_cases {s : State} (h : Inv s) :
    (∃ t, step s = .next t) ∨
    ∃ r op rest, step s = .refused r ∧ s.schedule = .host op :: rest ∧ op.location s.platform = .error r := by
  match hs : s.schedule with
  | [] => exact .inl (step_unscheduled hs ▸ h.blockTurn_steps)
  | .blockTurn :: rest => exact .inl (step_blockTurn hs ▸ (h.scheduled rest).blockTurn_steps)
  | .poll :: rest => exact .inl ⟨_, step_poll hs⟩
  | .reset :: rest => exact .inl ⟨_, step_reset hs⟩
  | .host op :: rest =>
    cases hl : op.location s.platform with
    | ok loc => exact .inl (step_located hs hl)
    | error r => exact .inr ⟨r, op, rest, step_unlocated hs hl, rfl, hl⟩

/-- Settles O54: under the invariant the block's turn always has a next state, so only a host access can be refused. -/
theorem noStepFaults : Obligations.NoStepFaults := by
  unfold Obligations.NoStepFaults
  intro s h
  rcases h.step_cases with ⟨t, ht⟩ | ⟨r, op, rest, hr, hs, hl⟩
  · exact ⟨fun _ hf => (nomatch ht.symm.trans hf), fun _ hr => (nomatch ht.symm.trans hr)⟩
  · refine ⟨fun _ hf => (nomatch hr.symm.trans hf), fun r' hr' => ?_⟩
    cases hr.symm.trans hr'
    refine ⟨op, rest, hs, ?_⟩
    cases op with
    | write space offset width v => exact .inl ⟨space, offset, width, v, rfl, hl⟩
    | read space offset width => exact .inr (.inl ⟨space, offset, width, rfl, hl⟩)
    | writeAt a width v => exact .inr (.inr (.inl ⟨a, width, v, rfl, hl⟩))
    | readAt a width => exact .inr (.inr (.inr ⟨a, width, rfl, hl⟩))

end Sys2Proof.Machine
end

section
/-! The decoder of control bytes and command words, and the encoder as its inverse (spec/30 R80 to R93). -/

namespace Sys2Proof

@[simp] theorem Instr.wf_lit (c : Int) : (Instr.lit c).wf = true ↔ 0 ≤ c ∧ c ≤ 127 := by simp [Instr.wf]
@[simp] theorem Instr.wf_rep (c : Int) : (Instr.rep c).wf = true ↔ -127 ≤ c ∧ c ≤ -1 := by simp [Instr.wf]

/-! ### Control bytes -/

theorem toUnsigned8_eq_iff {v : Int} {b : Byte} : toUnsigned8 v = b ↔ v % 256 = b.toNat := by
  rw [← BitVec.toNat_inj, toUnsigned8, BitVec.toNat_ofNat]
  omega

theorem toSigned8_toUnsigned8 {c : Int} (hl : -128 ≤ c) (hu : c ≤ 127) : toSigned8 (toUnsigned8 c) = c := by
  have hb : c % 256 = (toUnsigned8 c).toNat := toUnsigned8_eq_iff.mp rfl
  unfold toSigned8
  split <;> omega

@[simp] theorem toUnsigned8_toSigned8 (b : Byte) : toUnsigned8 (toSigned8 b) = b := by
  have hb := b.isLt
  rw [toUnsigned8_eq_iff, toSigned8]
  split <;> omega

theorem toSigned8_bounds (b : Byte) : -128 ≤ toSigned8 b ∧ toSigned8 b ≤ 127 := by
  have hb := b.isLt
  unfold toSigned8
  split <;> omega

theorem decodeControl_of_nop {b : Byte} (h : toSigned8 b = -128) : decodeControl b = .nop := if_pos h

theorem decodeControl_of_lit {b : Byte} (h : 0 ≤ toSigned8 b) : decodeControl b = .lit (toSigned8 b) := by
  rw [decodeControl, if_neg (by omega), if_pos h]

theorem decodeControl_of_rep {b : Byte} (hne : toSigned8 b ≠ -128) (h : toSigned8 b < 0) :
    decodeControl b = .rep (toSigned8 b) := by
  rw [decodeControl, if_neg hne, if_neg (by omega)]

/-- The three classes of a control byte, by its signed value (spec/30 R81). -/
theorem controlByte_cases (b : Byte) :
    toSigned8 b = -128 ∨ 0 ≤ toSigned8 b ∨ (toSigned8 b ≠ -128 ∧ toSigned8 b < 0) := by omega

/-- Each control byte is the encoding of the one instruction it decodes to (spec/30 R80, R83 to R85). -/
theorem decodeControl_eq_iff {b : Byte} {i : Instr} : decodeControl b = i ↔ i.wf ∧ encode i = .control b := by
  constructor
  · rintro rfl
    have ⟨hl, hu⟩ := toSigned8_bounds b
    rcases controlByte_cases b with h | h | ⟨hne, h⟩
    · rw [decodeControl_of_nop h]
      exact ⟨rfl, by rw [← toUnsigned8_toSigned8 b, h]; rfl⟩
    · simp [decodeControl_of_lit h, encode, h, hu]
    · simp only [decodeControl_of_rep hne h, encode, Instr.wf_rep, toUnsigned8_toSigned8, and_true]
      omega
  · rintro ⟨hwf, he⟩
    cases i with
    | lit c =>
      obtain ⟨hl, hu⟩ := (Instr.wf_lit c).mp hwf
      have hc : toSigned8 b = c := by
        rw [← InstrWord.control.inj he, toSigned8_toUnsigned8 (by omega) hu]
      rw [decodeControl_of_lit (by omega), hc]
    | rep c =>
      obtain ⟨hl, hu⟩ := (Instr.wf_rep c).mp hwf
      have hc : toSigned8 b = c := by
        rw [← InstrWord.control.inj he, toSigned8_toUnsigned8 (by omega) (by omega)]
      rw [decodeControl_of_rep (by omega) (by omega), hc]
    | nop =>
      obtain rfl : 0x80#8 = b := InstrWord.control.inj he
      rfl
    | encode | decode | toU8 | toS8 => cases he

/-! ### Command words -/

/-- A command word is the encoding of the command it decodes to (spec/30 R92). -/
theorem decodeCommand_eq_ok_iff {w : Word} {i : Instr} : decodeCommand w = .ok i ↔ encode i = .command w := by
  constructor
  · intro h
    unfold decodeCommand at h
    split_ifs at h with hw hw hw hw <;> cases h <;> exact congrArg InstrWord.command hw.symm
  · intro h
    cases i with
    | lit | rep | nop => cases h
    | encode | decode | toU8 | toS8 => cases h; rfl

/-- The decoder of both layers inverts the encoder of instructions. -/
theorem decodeWord_eq_ok_iff {w : InstrWord} {i : Instr} : decodeWord w = .ok i ↔ i.wf ∧ encode i = w := by
  cases w with
  | control b => rw [decodeWord, Except.ok.injEq, decodeControl_eq_iff]
  | command w =>
    rw [decodeWord, decodeCommand_eq_ok_iff, iff_and_self]
    intro he
    cases i with
    | lit | rep | nop => cases he
    | encode | decode | toU8 | toS8 => rfl

/-- Settles O4: both directions are the one equivalence between decoding to an instruction and being its encoding. -/
theorem decodeAndEncodeAgree : Obligations.DecodeAndEncodeAgree := by
  unfold Obligations.DecodeAndEncodeAgree
  exact ⟨fun _ hi => decodeWord_eq_ok_iff.mpr ⟨hi, rfl⟩, fun _ _ h => decodeWord_eq_ok_iff.mp h⟩

theorem getLsbD_seven (b : Byte) : b.getLsbD 7 = decide (128 ≤ b.toNat) := by
  simpa [BitVec.msb_eq_getLsbD_last] using BitVec.msb_eq_decide b

/-- Settles O1: each class is the instruction whose encoding the byte is. -/
theorem controlByteClasses : Obligations.ControlByteClasses := by
  unfold Obligations.ControlByteClasses
  intro b
  have hlt := b.isLt
  rw [getLsbD_seven]
  refine ⟨?_, fun h7 => ?_, fun h7 hne => ?_, (decodeControl_eq_iff.mp rfl).1⟩
  · rintro rfl; rfl
  · have hle : ¬ 128 ≤ b.toNat := of_decide_eq_false h7
    have hwf : (Instr.lit b.toNat).wf := by rw [Instr.wf_lit]; omega
    exact decodeControl_eq_iff.mpr ⟨hwf, congrArg InstrWord.control (toUnsigned8_eq_iff.mpr (by omega))⟩
  · have hge : 128 ≤ b.toNat := of_decide_eq_true h7
    have hne : b.toNat ≠ 128 := fun h => hne (BitVec.eq_of_toNat_eq h)
    have hc : ((b.setWidth 7).toNat : Int) - 128 = b.toNat - 256 := by rw [BitVec.toNat_setWidth]; omega
    have hwf : (Instr.rep (b.toNat - 256)).wf := by rw [Instr.wf_rep]; omega
    rw [hc]
    exact decodeControl_eq_iff.mpr ⟨hwf, congrArg InstrWord.control (toUnsigned8_eq_iff.mpr (by omega))⟩

/-- Settles O2: of the words the decoder's comparisons name, and of any other. -/
theorem commandWordsAreExactlyFour : Obligations.CommandWordsAreExactlyFour := by
  unfold Obligations.CommandWordsAreExactlyFour
  refine ⟨rfl, rfl, rfl, rfl, fun w h1 h2 h3 h4 => ?_⟩
  have hc : Machine.isCodecCommand w = false := by
    simp only [Machine.isCodecCommand, Bool.or_eq_false_iff, decide_eq_false_iff_not]
    exact ⟨h1, h2⟩
  exact Machine.decodeCommand_illegal hc h3 h4

end Sys2Proof
end

section
/-! The rows of the opcode table, as the decoder reads them (spec/opcode_table.json, spec/30 R81, R91). -/

namespace Sys2Proof

theorem tableRow_statement (i : Instr) : Laws.TableRow.Statement i := by
  cases i with
  | lit c => exact Laws.TableRow.lit c
  | rep c => exact Laws.TableRow.rep c
  | nop => exact Laws.TableRow.nop
  | encode => exact Laws.TableRow.encode
  | decode => exact Laws.TableRow.decode
  | toU8 => exact Laws.TableRow.toU8
  | toS8 => exact Laws.TableRow.toS8

theorem eq_of_mnemonic_eq : ∀ r ∈ opcodeTable, ∀ r' ∈ opcodeTable, r.mnemonic = r'.mnemonic → r = r' := by decide

/-- The decoder gives an instruction from the bits of its encoding, in the width of its format, and from no others. -/
theorem decodeTableWord_eq_some {nbits w : Nat} {i : Instr} (h : decodeTableWord nbits w = some i) :
    i.wf ∧ Laws.tableWord (encode i) = (nbits, w) := by
  unfold decodeTableWord at h
  split_ifs at h with hw h8 h32
  · subst h8
    obtain ⟨hwf, he⟩ := decodeControl_eq_iff.mp (Option.some.inj h)
    have hn : (BitVec.ofNat 8 w).toNat = w := by rw [BitVec.toNat_ofNat]; omega
    exact ⟨hwf, by rw [he, Laws.tableWord, hn]⟩
  · subst h32
    split at h
    next j hj =>
      obtain rfl : j = i := Option.some.inj h
      obtain ⟨hwf, he⟩ := decodeWord_eq_ok_iff.mp hj
      have hn : (BitVec.ofNat 32 w).toNat = w := by rw [BitVec.toNat_ofNat]; omega
      exact ⟨hwf, by rw [he, Laws.tableWord, hn]⟩
    next => cases h

/-- A row whose mask covers the width and that has no exceptions is one word. -/
theorem eq_pattern_of_rowMatches {r : OpcodeRow} {w : Nat} (hm : r.mask = 2 ^ r.nbits - 1)
    (h : rowMatches r w = true) : w = r.pattern := by
  simp only [rowMatches, Bool.and_eq_true, decide_eq_true_eq, beq_iff_eq] at h
  obtain ⟨⟨hlt, hp⟩, -⟩ := h
  rwa [hm, Nat.and_two_pow_sub_one_eq_mod, Nat.mod_eq_of_lt hlt] at hp

/-- The rows of control bytes, over the bytes by their two hexadecimal digits. -/
theorem mnemonic_of_rowMatches_digits : ∀ r ∈ opcodeTable, r.nbits = 8 → ∀ a b : Fin 16,
    rowMatches r (16 * a + b) = true → (decodeTableWord r.nbits (16 * a + b)).map mnemonic = some r.mnemonic := by
  decide

/-- The rows of command words, each one word. -/
theorem mnemonic_of_pattern : ∀ r ∈ opcodeTable, r.nbits ≠ 8 → r.mask = 2 ^ r.nbits - 1 ∧
    (decodeTableWord r.nbits r.pattern).map mnemonic = some r.mnemonic := by decide

theorem mnemonic_of_rowMatches {r : OpcodeRow} (hr : r ∈ opcodeTable) {w : Nat} (h : rowMatches r w = true) :
    (decodeTableWord r.nbits w).map mnemonic = some r.mnemonic := by
  by_cases h8 : r.nbits = 8
  · have hw : w < 256 := by
      simp only [rowMatches, Bool.and_eq_true, decide_eq_true_eq, h8] at h
      exact h.1.1
    have hdigits : 16 * (w / 16) + w % 16 = w := Nat.div_add_mod w 16
    have hrow := mnemonic_of_rowMatches_digits r hr h8 ⟨w / 16, by omega⟩ ⟨w % 16, by omega⟩
    simp only [hdigits] at hrow
    exact hrow h
  · obtain ⟨hm, hp⟩ := mnemonic_of_pattern r hr h8
    rwa [eq_pattern_of_rowMatches hm h]

theorem rowMatches_iff {r : OpcodeRow} (hr : r ∈ opcodeTable) (w : Nat) :
    rowMatches r w = true ↔ ∃ i, decodeTableWord r.nbits w = some i ∧ mnemonic i = r.mnemonic := by
  refine ⟨fun h => Option.map_eq_some_iff.mp (mnemonic_of_rowMatches hr h), ?_⟩
  rintro ⟨i, hi, hm⟩
  obtain ⟨hwf, hw⟩ := decodeTableWord_eq_some hi
  obtain ⟨r', hr', hm', -, hrow, -⟩ := tableRow_statement i hwf
  rw [hw] at hrow
  rwa [eq_of_mnemonic_eq r hr r' hr' (hm.symm.trans hm'.symm)]

/-- Settles O5: rows match as the decoder decodes, so two rows of one width that match a word have one mnemonic. -/
theorem decoderReadsTheOpcodeTable : Obligations.DecoderReadsTheOpcodeTable := by
  unfold Obligations.DecoderReadsTheOpcodeTable
  refine ⟨fun r hr w => rowMatches_iff hr w, fun r hr r' hr' w hn h h' => ?_⟩
  have hm := mnemonic_of_rowMatches hr h
  rw [hn, mnemonic_of_rowMatches hr' h'] at hm
  exact (eq_of_mnemonic_eq r' hr' r hr (Option.some.inj hm)).symm

end Sys2Proof
end

section
/-! The stream format: the complete chunk at the head of a sequence, and the parse into chunks (spec/30 R82 to R88). -/

namespace Sys2Proof.Machine

@[simp] theorem Chunk.wf_lit (data : List Byte) :
    (Chunk.lit data).wf = true ↔ 1 ≤ data.length ∧ data.length ≤ 128 := by simp [Chunk.wf]
@[simp] theorem Chunk.wf_rep (k : Nat) (v : Byte) : (Chunk.rep k v).wf = true ↔ 2 ≤ k ∧ k ≤ 128 := by simp [Chunk.wf]

theorem Chunk.bytes_length_pos (c : Chunk) : 0 < c.bytes.length := by cases c <;> simp [Chunk.bytes]

theorem streamBytes_cons (c : Chunk) (cs : List Chunk) : streamBytes (c :: cs) = c.bytes ++ streamBytes cs :=
  List.flatMap_cons

theorem streamOutput_cons (c : Chunk) (cs : List Chunk) : streamOutput (c :: cs) = c.output ++ streamOutput cs :=
  List.flatMap_cons

/-! ### The chunk at the head of a sequence -/

section
variable {b : Byte}

theorem takeChunk_nop (h : toSigned8 b = -128) (rest : List Byte) : takeChunk (b :: rest) = some (.nop, rest) := by
  simp only [takeChunk, decodeControl_of_nop h]

theorem takeChunk_lit {k : Nat} (h : toSigned8 b = (k : Int) - 1) (hk : 1 ≤ k) (rest : List Byte) :
    takeChunk (b :: rest) = if rest.length < k then none else some (.lit (rest.take k), rest.drop k) := by
  have hc : (toSigned8 b + 1).toNat = k := by omega
  simp only [takeChunk, decodeControl_of_lit (b := b) (by omega), hc]

theorem takeChunk_rep {k : Nat} (h : toSigned8 b = -((k : Int) - 1)) (hk : 2 ≤ k ∧ k ≤ 128) (v : Byte)
    (rest : List Byte) : takeChunk (b :: v :: rest) = some (.rep k v, rest) := by
  have hc : (-toSigned8 b + 1).toNat = k := by omega
  simp only [takeChunk, decodeControl_of_rep (b := b) (by omega) (by omega), hc]

end

/-- The control bytes by the chunks they head. -/
theorem headByte_cases (b : Byte) :
    b = 0x80#8 ∨
    (∃ k : Nat, toSigned8 b = (k : Int) - 1 ∧ 1 ≤ k ∧ k ≤ 128) ∨
    (∃ k : Nat, toSigned8 b = -((k : Int) - 1) ∧ 2 ≤ k ∧ k ≤ 128) := by
  have ⟨hl, hu⟩ := toSigned8_bounds b
  rcases controlByte_cases b with h | h | ⟨hne, h⟩
  · exact .inl (by rw [← toUnsigned8_toSigned8 b, h]; rfl)
  · exact .inr (.inl ⟨(toSigned8 b + 1).toNat, by omega⟩)
  · exact .inr (.inr ⟨(1 - toSigned8 b).toNat, by omega⟩)

theorem Chunk.toSigned8_lit {data : List Byte} (h : (Chunk.lit data).wf = true) :
    toSigned8 (toUnsigned8 ((data.length : Int) - 1)) = (data.length : Int) - 1 := by
  rw [Chunk.wf_lit] at h
  exact toSigned8_toUnsigned8 (by omega) (by omega)

theorem Chunk.toSigned8_rep {k : Nat} {v : Byte} (h : (Chunk.rep k v).wf = true) :
    toSigned8 (toUnsigned8 (-((k : Int) - 1))) = -((k : Int) - 1) := by
  rw [Chunk.wf_rep] at h
  exact toSigned8_toUnsigned8 (by omega) (by omega)

/-- A complete chunk at the head of a sequence is the one taken. -/
theorem takeChunk_bytes_append {c : Chunk} (h : c.wf) (rest : List Byte) :
    takeChunk (c.bytes ++ rest) = some (c, rest) := by
  cases c with
  | lit data =>
    have hlen : ¬ (data ++ rest).length < data.length := by rw [List.length_append]; omega
    rw [Chunk.bytes, List.cons_append, takeChunk_lit (Chunk.toSigned8_lit h) ((Chunk.wf_lit data).mp h).1,
      if_neg hlen, List.take_left, List.drop_left]
  | rep k v => exact takeChunk_rep (Chunk.toSigned8_rep h) ((Chunk.wf_rep k v).mp h) v rest
  | nop => exact takeChunk_nop rfl rest

/-- Nothing, or one truncated chunk: a control byte that declares more data than remains (spec/30 R87). -/
abbrev Incomplete (y : List Byte) : Prop :=
  y = [] ∨ ∃ b data, y = b :: data ∧ data.length + 1 < chunkLength (decodeControl b)

/-- A sequence begins with a complete chunk, or it is incomplete and no chunk is taken. -/
theorem takeChunk_cases (y : List Byte) :
    (∃ (c : Chunk) (rest : List Byte), c.wf ∧ y = c.bytes ++ rest) ∨ (takeChunk y = none ∧ Incomplete y) := by
  cases y with
  | nil => exact .inr ⟨rfl, .inl rfl⟩
  | cons b data =>
    rcases headByte_cases b with rfl | ⟨k, hb, hk, hk'⟩ | ⟨k, hb, hk⟩
    · exact .inl ⟨.nop, data, rfl, rfl⟩
    · by_cases hlen : data.length < k
      · refine .inr ⟨by rw [takeChunk_lit hb hk, if_pos hlen], .inr ⟨b, data, rfl, ?_⟩⟩
        rw [decodeControl_of_lit (by omega), chunkLength]
        omega
      · have hdata : (data.take k).length = k := by rw [List.length_take]; omega
        refine .inl ⟨.lit (data.take k), data.drop k, ?_, ?_⟩
        · rw [Chunk.wf_lit, hdata]
          exact ⟨hk, hk'⟩
        · rw [Chunk.bytes, hdata, ← hb, toUnsigned8_toSigned8, List.cons_append, List.take_append_drop]
    · cases data with
      | nil =>
        have hrep := decodeControl_of_rep (b := b) (by omega) (by omega)
        exact .inr ⟨by simp only [takeChunk, hrep], .inr ⟨b, [], rfl, by simp [hrep, chunkLength]⟩⟩
      | cons v rest =>
        refine .inl ⟨.rep k v, rest, (Chunk.wf_rep k v).mpr hk, ?_⟩
        rw [Chunk.bytes, ← hb, toUnsigned8_toSigned8]
        rfl

/-- Induction over a sequence as the parse reads it: chunk by chunk, up to a sequence no chunk is taken from. -/
theorem chunkInduction {P : List Byte → Prop} (stop : ∀ y, takeChunk y = none → Incomplete y → P y)
    (chunk : ∀ (c : Chunk) (rest : List Byte), c.wf → P rest → P (c.bytes ++ rest)) (y : List Byte) : P y := by
  induction hn : y.length using Nat.strong_induction_on generalizing y with
  | _ n ih =>
    rcases takeChunk_cases y with ⟨c, rest, hc, rfl⟩ | ⟨ht, hy⟩
    · have hpos := c.bytes_length_pos
      rw [List.length_append] at hn
      exact chunk c rest hc (ih rest.length (by omega) rest rfl)
    · exact stop y ht hy

/-! ### The parse -/

theorem parseFuel_stop {y : List Byte} (h : takeChunk y = none) (fuel : Nat) : parseFuel fuel y = ([], y) := by
  cases fuel with
  | zero => rfl
  | succ fuel => simp only [parseFuel, h]

theorem parseFuel_chunk {c : Chunk} (h : c.wf) (rest : List Byte) (fuel : Nat) :
    parseFuel (fuel + 1) (c.bytes ++ rest) = (c :: (parseFuel fuel rest).1, (parseFuel fuel rest).2) := by
  simp only [parseFuel, takeChunk_bytes_append h]

/-- Fuel for a sequence that begins with a chunk is one more than fuel for the rest. -/
theorem exists_succ_of_chunk_length_le {c : Chunk} {rest : List Byte} {fuel : Nat}
    (h : (c.bytes ++ rest).length ≤ fuel) : ∃ m, fuel = m + 1 ∧ rest.length ≤ m := by
  have hpos := c.bytes_length_pos
  rw [List.length_append] at h
  exact ⟨fuel - 1, by omega⟩

/-- Fuel beyond the length changes nothing. -/
theorem parseFuel_eq_parse (y : List Byte) : ∀ fuel, y.length ≤ fuel → parseFuel fuel y = parse y := by
  induction y using chunkInduction with
  | stop y ht _ => exact fun fuel _ => by rw [parse, parseFuel_stop ht, parseFuel_stop ht]
  | chunk c rest hc ih =>
    intro fuel hf
    obtain ⟨m, rfl, hm⟩ := exists_succ_of_chunk_length_le hf
    obtain ⟨n, hn, hn'⟩ := exists_succ_of_chunk_length_le (c := c) (rest := rest) le_rfl
    rw [parse, hn, parseFuel_chunk hc, parseFuel_chunk hc, ih m hm, ih n hn']

theorem parse_stop {y : List Byte} (h : takeChunk y = none) : parse y = ([], y) := parseFuel_stop h _

theorem parse_chunk {c : Chunk} (h : c.wf) (rest : List Byte) :
    parse (c.bytes ++ rest) = (c :: (parse rest).1, (parse rest).2) := by
  obtain ⟨n, hn, hn'⟩ := exists_succ_of_chunk_length_le (c := c) (rest := rest) le_rfl
  rw [parse, hn, parseFuel_chunk h, parseFuel_eq_parse rest n hn']

/-- The parse of complete chunks and what follows them is those chunks and the parse of what follows. -/
theorem parse_streamBytes_append {cs : List Chunk} (h : ∀ c ∈ cs, c.wf) (rest : List Byte) :
    parse (streamBytes cs ++ rest) = (cs ++ (parse rest).1, (parse rest).2) := by
  induction cs with
  | nil => rfl
  | cons c cs ih =>
    rw [List.forall_mem_cons] at h
    rw [streamBytes_cons, List.append_assoc, parse_chunk h.1, ih h.2]
    rfl

theorem parse_streamBytes {cs : List Chunk} (h : ∀ c ∈ cs, c.wf) : parse (streamBytes cs) = (cs, []) := by
  have hp := parse_streamBytes_append h []
  rwa [List.append_nil, parse_stop (y := []) rfl, List.append_nil] at hp

theorem parse_wf (y : List Byte) : ∀ c ∈ (parse y).1, c.wf := by
  induction y using chunkInduction with
  | stop y ht _ => simp [parse_stop ht]
  | chunk c rest hc ih =>
    rw [parse_chunk hc]
    exact List.forall_mem_cons.mpr ⟨hc, ih⟩

theorem streamBytes_parse (y : List Byte) : streamBytes (parse y).1 ++ (parse y).2 = y := by
  induction y using chunkInduction with
  | stop y ht _ => rw [parse_stop ht]; rfl
  | chunk c rest hc ih => rw [parse_chunk hc, streamBytes_cons, List.append_assoc, ih]

theorem parse_rest_incomplete (y : List Byte) : Incomplete (parse y).2 := by
  induction y using chunkInduction with
  | stop y ht hy => rwa [parse_stop ht]
  | chunk c rest hc ih => rwa [parse_chunk hc]

/-- Settles O7: the parse of the bytes of complete chunks gives those chunks back, whatever follows them. -/
theorem streamHasOneParse : Obligations.StreamHasOneParse := by
  unfold Obligations.StreamHasOneParse
  refine ⟨fun cs cs' h h' heq => ?_, fun y => ⟨parse_wf y, (streamBytes_parse y).symm, parse_rest_incomplete y,
    ?_⟩⟩
  · have hp := parse_streamBytes h
    rw [heq, parse_streamBytes h'] at hp
    exact (congrArg Prod.fst hp).symm
  · rintro cs rest h rfl
    rw [parse_streamBytes_append h]
    exact ⟨(parse rest).1, rfl⟩

end Sys2Proof.Machine
end

section
/-! `decode` as a reading of the parse (spec/30 R87, spec/42 R183, R184). -/

namespace Sys2Proof.Machine

/-- What `decode` makes of a parse: the bytes its chunks stand for, unless a truncated chunk is left. -/
def decodedOf : List Chunk × List Byte → Codec.Decoded
  | (cs, []) => .ok (streamOutput cs)
  | (_, _ :: _) => .corruptData

@[simp] theorem prepend_nil (r : Codec.Decoded) : Codec.prepend [] r = r := by cases r <;> rfl

theorem prepend_decodedOf (c : Chunk) (cs : List Chunk) (rest : List Byte) :
    Codec.prepend c.output (decodedOf (cs, rest)) = decodedOf (c :: cs, rest) := by
  cases rest with
  | nil => simp only [decodedOf, Codec.prepend, streamOutput_cons]
  | cons => rfl

/-- `dec` does not look back: the bytes before its index do not count. -/
theorem decFuel_append (pre y : List Byte) (fuel p : Nat) :
    Codec.decFuel fuel (pre ++ y) (pre.length + p) = Codec.decFuel fuel y p := by
  induction fuel generalizing p with
  | zero => rfl
  | succ fuel ih =>
    have hget (j : Nat) : (pre ++ y)[pre.length + j]? = y[j]? := by
      rw [List.getElem?_append_right (by omega), Nat.add_sub_cancel_left]
    have hlen (j : Nat) : (pre ++ y).length < pre.length + j ↔ y.length < j := by
      rw [List.length_append]; omega
    simp only [Codec.decFuel, Nat.add_assoc, hget, hlen, List.drop_length_add_append, ih]

section
variable {y : List Byte} {p k : Nat} {b : Byte} (hy : y[p]? = some b)
include hy

theorem decFuel_nop (hb : toSigned8 b = -128) (fuel : Nat) :
    Codec.decFuel (fuel + 1) y p = Codec.decFuel fuel y (p + 1) := by
  simp only [Codec.decFuel, hy, if_pos hb]

theorem decFuel_lit (hb : toSigned8 b = (k : Int) - 1) (hk : 1 ≤ k) (fuel : Nat) :
    Codec.decFuel (fuel + 1) y p = if y.length < p + 1 + k then .corruptData
      else Codec.prepend ((y.drop (p + 1)).take k) (Codec.decFuel fuel y (p + 1 + k)) := by
  have hc : (toSigned8 b + 1).toNat = k := by omega
  have hnop : toSigned8 b ≠ -128 := by omega
  have hlit : 0 ≤ toSigned8 b := by omega
  simp only [Codec.decFuel, hy, if_neg hnop, if_pos hlit, hc]

theorem decFuel_rep {v : Byte} (hv : y[p + 1]? = some v) (hb : toSigned8 b = -((k : Int) - 1)) (hk : 2 ≤ k ∧ k ≤ 128)
    (fuel : Nat) :
    Codec.decFuel (fuel + 1) y p = Codec.prepend (List.replicate k v) (Codec.decFuel fuel y (p + 2)) := by
  have hc : (-toSigned8 b + 1).toNat = k := by omega
  have hnop : toSigned8 b ≠ -128 := by omega
  have hlit : ¬ 0 ≤ toSigned8 b := by omega
  simp only [Codec.decFuel, hy, hv, if_neg hnop, if_neg hlit, hc]

theorem decFuel_rep_truncated (hv : y[p + 1]? = none) (hb : toSigned8 b = -((k : Int) - 1)) (hk : 2 ≤ k ∧ k ≤ 128)
    (fuel : Nat) : Codec.decFuel (fuel + 1) y p = .corruptData := by
  have hnop : toSigned8 b ≠ -128 := by omega
  have hlit : ¬ 0 ≤ toSigned8 b := by omega
  simp only [Codec.decFuel, hy, hv, if_neg hnop, if_neg hlit]

end

/-- One complete chunk read by `dec` (spec/42 R183). -/
theorem decFuel_chunk {c : Chunk} (h : c.wf) (rest : List Byte) (fuel : Nat) :
    Codec.decFuel (fuel + 1) (c.bytes ++ rest) 0 = Codec.prepend c.output (Codec.decFuel fuel rest 0) := by
  rw [← decFuel_append c.bytes rest fuel 0]
  cases c with
  | lit data =>
    have hlen : ¬ ((Chunk.lit data).bytes ++ rest).length < 0 + 1 + data.length := by
      rw [List.length_append, Chunk.bytes, List.length_cons]; omega
    rw [decFuel_lit rfl (Chunk.toSigned8_lit h) ((Chunk.wf_lit data).mp h).1, if_neg hlen, Nat.add_comm (0 + 1)]
    exact congrArg (Codec.prepend · _) List.take_left
  | rep k v => exact decFuel_rep rfl rfl (Chunk.toSigned8_rep h) ((Chunk.wf_rep k v).mp h) fuel
  | nop => exact (decFuel_nop rfl rfl fuel).trans (prepend_nil _).symm

theorem decFuel_truncated {b : Byte} {data : List Byte} (h : data.length + 1 < chunkLength (decodeControl b))
    (fuel : Nat) : Codec.decFuel (fuel + 1) (b :: data) 0 = .corruptData := by
  rcases headByte_cases b with rfl | ⟨k, hb, hk, -⟩ | ⟨k, hb, hk⟩
  · exact absurd h (Nat.not_lt.mpr (Nat.le_add_left 1 data.length))
  · rw [decodeControl_of_lit (by omega), chunkLength] at h
    rw [decFuel_lit rfl hb hk, if_pos (by rw [List.length_cons]; omega)]
  · rw [decodeControl_of_rep (by omega) (by omega), chunkLength] at h
    obtain rfl : data = [] := List.eq_nil_of_length_eq_zero (by omega)
    exact decFuel_rep_truncated rfl rfl hb hk fuel

theorem decFuel_eq_decodedOf (y : List Byte) :
    ∀ fuel, y.length ≤ fuel → Codec.decFuel fuel y 0 = decodedOf (parse y) := by
  induction y using chunkInduction with
  | stop y ht hy =>
    intro fuel hf
    rw [parse_stop ht]
    rcases hy with rfl | ⟨b, data, rfl, hlen⟩
    · cases fuel <;> rfl
    · obtain ⟨m, rfl⟩ : ∃ m, fuel = m + 1 := ⟨fuel - 1, by rw [List.length_cons] at hf; omega⟩
      exact decFuel_truncated hlen m
  | chunk c rest hc ih =>
    intro fuel hf
    obtain ⟨m, rfl, hm⟩ := exists_succ_of_chunk_length_le hf
    rw [decFuel_chunk hc, ih m hm, parse_chunk hc, prepend_decodedOf]

theorem decode_eq_decodedOf (y : List Byte) : Codec.decode y = decodedOf (parse y) :=
  decFuel_eq_decodedOf y _ le_rfl

/-- The parse leaves nothing exactly of the concatenations of complete chunks, and then it is those chunks. -/
theorem parse_eq_iff {y : List Byte} {cs : List Chunk} :
    parse y = (cs, []) ↔ (∀ c ∈ cs, c.wf) ∧ y = streamBytes cs := by
  refine ⟨fun h => ?_, fun ⟨h, hy⟩ => hy ▸ parse_streamBytes h⟩
  have hwf := parse_wf y
  have hy := streamBytes_parse y
  rw [h] at hwf hy
  exact ⟨hwf, by rw [← hy, List.append_nil]⟩

theorem decodedOf_eq_ok_iff {r : List Chunk × List Byte} {z : List Byte} :
    decodedOf r = .ok z ↔ ∃ cs, r = (cs, []) ∧ z = streamOutput cs := by
  obtain ⟨cs, _ | ⟨b, rest⟩⟩ := r
  · simp [decodedOf, eq_comm]
  · simp [decodedOf]

theorem decodedOf_eq_corruptData_iff {r : List Chunk × List Byte} :
    decodedOf r = .corruptData ↔ ¬ ∃ cs, r = (cs, []) := by
  obtain ⟨cs, _ | ⟨b, rest⟩⟩ := r <;> simp [decodedOf]

/-- Settles O14: `decode` reads the parse, and a sequence is a concatenation of complete chunks when its parse leaves
nothing. -/
theorem decodeFollowsTheGrammar : Obligations.DecodeFollowsTheGrammar := by
  unfold Obligations.DecodeFollowsTheGrammar
  intro y
  rw [decode_eq_decodedOf]
  refine ⟨fun z => ?_, ?_⟩
  · simp only [decodedOf_eq_ok_iff, parse_eq_iff, and_assoc]
  · simp only [decodedOf_eq_corruptData_iff, parse_eq_iff]

end Sys2Proof.Machine
end

section
/-! `POLL` (spec/30 R95). -/

namespace Sys2Proof.Machine

/-- One read of `POLL`: STATUS goes to the host, and while it reads BUSY 1 another read follows a turn of the block. -/
theorem pollStatus_eq (s : State) :
    pollStatus s = { s with
      schedule := if s.busy then .blockTurn :: .poll :: s.schedule else s.schedule
      received := .word s.status :: s.received } := by
  unfold pollStatus
  split <;> rfl

/-- Settles O29: what one read of `POLL` leaves, idle and busy. -/
theorem pollReadsStatusUntilIdle : Obligations.PollReadsStatusUntilIdle := by
  unfold Obligations.PollReadsStatusUntilIdle
  intro s rest h
  have hbusy : ({ s with schedule := rest } : State).busy = s.busy := rfl
  rw [step_poll h, pollStatus_eq, hbusy]
  exact ⟨fun hb => by rw [hb]; rfl, fun hb => by rw [hb]; rfl⟩

end Sys2Proof.Machine
end

section
/-! A turn of the block (spec/40 R110): none while idle, the CHECK step, or the next instruction; and the inputs no step
of a running command changes (spec/40 R115). -/

namespace Sys2Proof.Machine

/-! ### The block's turn -/

/-- The machine's step is the block's turn when nothing is scheduled and when a turn is. -/
theorem step_turn {s : State} {rest : List Event}
    (h : s.schedule = [] ∧ rest = [] ∨ s.schedule = .blockTurn :: rest) :
    step s = perform (blockAction { s with schedule := rest }) := by
  rcases h with ⟨hs, rfl⟩ | hs
  · rw [step_unscheduled hs, ← hs]
  · exact step_blockTurn hs

/-- Settles O28: the two forms of a turn, of an idle block. -/
theorem idleBlockDoesNothing : Obligations.IdleBlockDoesNothing := by
  unfold Obligations.IdleBlockDoesNothing
  intro s hb
  refine ⟨fun hs => ?_, fun rest hs => ?_⟩
  · rw [step_unscheduled hs, perform_idle hb]
  · rw [step_blockTurn hs]
    exact perform_idle hb

/-! ### The next instruction -/

/-- Of every command but DECODE the next instruction is the command itself (spec/40 R119). -/
theorem State.nextInstr_command {s : State} {i : Instr} (h : decodeCommand s.op = .ok i) (hi : i ≠ .decode) :
    s.nextInstr = .ok i := by
  cases i with
  | decode => exact absurd rfl hi
  | lit | rep | nop | encode | toU8 | toS8 => simp only [State.nextInstr, h]

section
variable {s : State} (h : decodeCommand s.op = .ok .decode)
include h

theorem State.nextInstr_consumed (hp : s.p = s.n.toNat) : s.nextInstr = .ok .decode := by
  simp only [State.nextInstr, h, if_pos hp]

/-- With input left, DECODE runs the instruction of the control byte at its cursor (spec/42 R173). -/
theorem State.nextInstr_stream (hp : s.p < s.n.toNat) (hn : s.inputFits) :
    s.nextInstr = .ok (decodeControl (s.ibufByte s.p)) := by
  simp only [State.nextInstr, h, if_neg hp.ne, State.input?_inside hp hn]

end

/-- The first of the input bytes from index `k` on is `IBUF[k]`. -/
theorem State.inputSeq_drop {s : State} {k : Nat} (hk : k < s.n.toNat) :
    s.inputSeq.drop k = s.ibufByte k :: s.inputSeq.drop (k + 1) := by
  rw [List.drop_eq_getElem_cons (by rwa [State.inputSeq_length])]
  simp [State.inputSeq]

/-- Settles O16: a running block's turn executes `nextInstr`, which reads `op` and, for DECODE with input left, the byte
at the cursor. -/
theorem stepRunsTheDecodedInstruction : Obligations.StepRunsTheDecodedInstruction := by
  unfold Obligations.StepRunsTheDecodedInstruction
  refine ⟨fun s i hb hp hi => ⟨fun hs => ?_, fun rest hs => ?_⟩, fun s i hd hi => s.nextInstr_command hd hi,
    fun s hd hp => s.nextInstr_consumed hd hp, fun s i rest hd hp hn hstream => ?_⟩
  · rw [step_unscheduled hs, perform_run hb hp hi]
  · rw [step_blockTurn hs]
    exact perform_run hb hp hi
  · rw [s.inputSeq_drop hp] at hstream
    cases hstream
    exact s.nextInstr_stream hd hp hn

/-! ### CHECK -/

/-- The converter commands pass CHECK whatever IN_LEN is (spec/40 R117). -/
theorem checkStep_converter {s : State} (h : s.op = codeToU8 ∨ s.op = codeToS8) :
    checkStep s = { s with phase := .run } := by
  rcases h with h | h <;> rw [checkStep, h] <;> rfl

theorem isCodecCommand_iff {w : Word} : isCodecCommand w = true ↔ w = codeEncode ∨ w = codeDecode := by
  simp [isCodecCommand]

/-- The turn of a block in the CHECK phase is `checkStep`. -/
theorem step_check {s t : State} {rest : List Event} (hb : s.busy = true) (hp : s.phase = .check)
    (hs : s.schedule = [] ∧ rest = [] ∨ s.schedule = .blockTurn :: rest)
    (ht : checkStep { s with schedule := rest } = t) : step s = .next t := by
  rw [step_turn hs, perform_check (s := { s with schedule := rest }) hb hp, ht]

/-- Settles O30: what `checkStep` makes of each class of command words. -/
theorem checkStepRefusesIllegalCommands : Obligations.CheckStepRefusesIllegalCommands := by
  unfold Obligations.CheckStepRefusesIllegalCommands
  intro s rest hb hp hs
  refine ⟨fun h1 h2 h3 h4 => ?_, fun hop hn => ?_, fun hop hn => ?_, fun hop => ?_⟩
  · have hc : isCodecCommand s.op = false :=
      Bool.eq_false_iff.mpr (isCodecCommand_iff.not.mpr (not_or.mpr ⟨h1, h2⟩))
    exact ⟨_, step_check hb hp hs (checkStep_illegal (decodeCommand_illegal hc h3 h4)), rfl⟩
  · exact ⟨_, step_check hb hp hs (checkStep_lenRange (isCodecCommand_iff.mpr hop) hn), rfl⟩
  · exact step_check hb hp hs (checkStep_codec (isCodecCommand_iff.mpr hop) hn)
  · exact step_check hb hp hs (checkStep_converter hop)

/-! ### The inputs of a running command -/

/-- From `s` to `t` the inputs of the command are the same (spec/40 R115). -/
structure InputsKept (s t : State) : Prop where
  op : t.op = s.op
  n : t.n = s.n
  inLen : t.inLen = s.inLen
  convIn : t.convIn = s.convIn
  ibuf : ∀ k, t.ibufByte k = s.ibufByte k

theorem checkStep_inputsKept (s : State) : InputsKept s (checkStep s) := by
  have hraise (e : ErrCode) : InputsKept s (s.raiseErr e) := by cases e <;> exact ⟨rfl, rfl, rfl, rfl, fun _ => rfl⟩
  rcases checkStep_cases s with ⟨_, h⟩ | ⟨_, _, _, h⟩ | ⟨_, _, h⟩ <;> rw [h]
  · exact hraise .illegalCmd
  · exact hraise .lenRange
  · exact ⟨rfl, rfl, rfl, rfl, fun _ => rfl⟩

theorem RunStep.inputsKept {i : Instr} {s t : State} (h : RunStep i s t) : InputsKept s t := by
  obtain ⟨-, hinLen, hconvIn, hop, hn, -, -, -, hibuf⟩ := h.inputs
  exact ⟨hop, hn, hinLen, hconvIn, hibuf⟩

/-- The block's turn keeps the inputs, whether it checks the command or runs it. -/
theorem blockTurn_inputsKept {s t : State} (h : perform (blockAction s) = .next t) : InputsKept s t := by
  rcases perform_cases s with ⟨_, hp⟩ | ⟨_, _, hp⟩ | ⟨_, _, i, _, hp⟩ | ⟨_, _, f, _, hp⟩ <;> rw [hp] at h
  · cases h; exact ⟨rfl, rfl, rfl, rfl, fun _ => rfl⟩
  · cases h; exact checkStep_inputsKept s
  · exact (exec_runStep h).inputsKept
  · cases h

/-- Settles O49: by the event of the step. The host's writes are dropped while the block is busy, its reads and `POLL`
touch only its own fields, and a turn of the block keeps the inputs. -/
theorem inputsAreFixedWhileBusy : Obligations.InputsAreFixedWhileBusy := by
  unfold Obligations.InputsAreFixedWhileBusy
  intro s t hb hreset ht
  rcases step_cases ht with ⟨rest, _, ht⟩ | ⟨op, rest, _, ht⟩ | ⟨rest, _, rfl⟩ | ⟨rest, hs, _⟩
  · obtain ⟨hop, hn, hinLen, hconvIn, hibuf⟩ := blockTurn_inputsKept ht
    exact ⟨hop, hn, hinLen, hconvIn, hibuf⟩
  · rw [hostAccess_busy (s := { s with schedule := rest }) hb ht]
    exact ⟨rfl, rfl, rfl, rfl, fun _ => rfl⟩
  · rw [pollStatus_frame]
    exact ⟨rfl, rfl, rfl, rfl, fun _ => rfl⟩
  · exact absurd hs (hreset rest)

end Sys2Proof.Machine
end

section
/-! The host's accesses around a command: acceptance, dropped writes, and reads of stored and of free values (spec/40
R111 to R114, R121). -/

namespace Sys2Proof.Machine

/-- Settles O20: the write names CMD, and an idle block accepts. -/
theorem acceptanceLatchesTheCommand : Obligations.AcceptanceLatchesTheCommand := by
  unfold Obligations.AcceptanceLatchesTheCommand
  intro s w rest hb hs
  rw [step_write (loc := .cmd) hs rfl, hostWrite_cmd (s := { s with schedule := rest }) hb]
  rfl

/-- Settles O21: a busy block ignores a write of any location. -/
theorem writesWhileBusyAreDropped : Obligations.WritesWhileBusyAreDropped := by
  unfold Obligations.WritesWhileBusyAreDropped
  intro s space offset width v loc rest hb hl hs
  rw [step_write hs hl, hostWrite_busy (s := { s with schedule := rest }) hb]

/-! ### Reads -/

theorem locate_ibuf {P : Platform} {k : Nat} (h : k < P.inCap) : locate P .ibuf k 8 = .ok (.ibuf k) := by
  simp [locate, Nat.not_le.mpr h]

theorem locate_obuf {P : Platform} {k : Nat} (h : k < P.outCap) : locate P .obuf k 8 = .ok (.obuf k) := by
  simp [locate, Nat.not_le.mpr h]

section
variable {s : State} {space : Space} {offset width : Nat} {loc : Location} {rest : List Event}
  (hs : s.schedule = .host (.read space offset width) :: rest) (hl : locate s.platform space offset width = .ok loc)
include hs hl

/-- A read by offset, at the location it names. -/
theorem step_read : step s = .next (hostRead loc { s with schedule := rest }) := by
  rw [step_host hs]
  simp only [hostAccess, hl]

/-- A read of a defined value changes only what the host has read (spec/20 R57). -/
theorem step_read_defined (hf : readIsFree loc s = false) :
    step s = .next { s with schedule := rest, received := readValue loc s :: s.received } := by
  have hf' : readIsFree loc { s with schedule := rest } = false := hf
  rw [step_read hs hl, hostRead, hf']
  rfl

/-- A read of a free value also takes a draw (spec/40 R121). -/
theorem step_read_free (hf : readIsFree loc s = true) :
    step s = .next { s with schedule := rest, received := readValue loc s :: s.received, draws := s.draws + 1 } := by
  have hf' : readIsFree loc { s with schedule := rest } = true := hf
  rw [step_read hs hl, hostRead, hf']
  rfl

end

/-- Settles O23: the location of each read, whose value is free at no moment or, for the results, not while idle. -/
theorem definedReadsReturnTheStoredValue : Obligations.DefinedReadsReturnTheStoredValue := by
  unfold Obligations.DefinedReadsReturnTheStoredValue
  intro s rest
  refine ⟨fun hs => ?_, fun hs => ?_, fun hs => ?_, fun hs => ?_, fun k hk hs => ?_,
    fun hb => ⟨fun hs => ?_, fun hs => ?_, fun k hk hs => ?_⟩⟩
  · exact step_read_defined (loc := .cmd) hs rfl rfl
  · exact step_read_defined (loc := .status) hs rfl rfl
  · exact step_read_defined (loc := .inLen) hs rfl rfl
  · exact step_read_defined (loc := .convIn) hs rfl rfl
  · exact step_read_defined hs (locate_ibuf hk) rfl
  · simpa [readValue, hb] using step_read_defined (loc := .outLen) hs rfl hb
  · simpa [readValue, hb] using step_read_defined (loc := .convOut) hs rfl hb
  · simpa [readValue, hb] using step_read_defined hs (locate_obuf hk) hb

/-- Settles O24: while the block is busy the results read as free values. -/
theorem resultReadsWhileBusyAreFree : Obligations.ResultReadsWhileBusyAreFree := by
  unfold Obligations.ResultReadsWhileBusyAreFree
  intro s rest hb
  refine ⟨fun hs => ?_, fun hs => ?_, fun k hk hs => ?_⟩
  · simpa [readValue, hb] using step_read_free (loc := .outLen) hs rfl hb
  · simpa [readValue, hb] using step_read_free (loc := .convOut) hs rfl hb
  · simpa [readValue, hb] using step_read_free hs (locate_obuf hk) hb

end Sys2Proof.Machine
end

section
/-! `emit` of one byte (spec/40 R118). -/

namespace Sys2Proof.Machine

theorem State.emit_fits {s : State} (b : Byte) (h : s.o < s.platform.outCap) : s.emit b = .ok (s.emitted [b]) :=
  if_neg (Nat.not_le.mpr h)

theorem State.emit_overflows {s : State} (b : Byte) (h : s.platform.outCap ≤ s.o) :
    s.emit b = .error (s.lost 0x42#32) := by
  rw [State.emit, if_pos h, s.raiseErr_eq_lost .outOverflow rfl, statusError_outOverflow]

/-- Settles O32: below OUT_CAP the byte is the one written at the count; at OUT_CAP nothing is. -/
theorem emitStoresOneByteOrOverflows : Obligations.EmitStoresOneByteOrOverflows := by
  unfold Obligations.EmitStoresOneByteOrOverflows
  intro s b
  refine ⟨fun hlt => ?_, s.emit_overflows b⟩
  obtain ⟨hwritten, hkept⟩ := s.emitted_writesAt [b]
  refine ⟨s.emitted [b], s.emit_fits b hlt, rfl, hwritten 0 b rfl, fun k hk => hkept k ?_⟩
  rw [List.length_singleton]
  omega

end Sys2Proof.Machine
end

section
/-! `enc` at the level of byte sequences: the run at an index, its recursion, and that it does not look back
(spec/41 R137, R149). -/

namespace Sys2Proof.Codec

/-! ### The run at an index -/

/-- `k` bytes equal to `v` stand first exactly when `takeWhile` takes as many. -/
theorem le_length_takeWhile_iff (l : List Byte) (v : Byte) (k : Nat) :
    k ≤ (l.takeWhile (· == v)).length ↔ ∀ j < k, l[j]? = some v := by
  induction l generalizing k with
  | nil => cases k with
    | zero => simp
    | succ k => simpa using ⟨0, Nat.zero_le k⟩
  | cons a l ih =>
    cases k with
    | zero => simp
    | succ k =>
      rw [Nat.forall_lt_succ_left]
      simp only [List.getElem?_cons_zero, List.getElem?_cons_succ, Option.some.injEq, ← ih]
      by_cases ha : a = v <;> simp [ha]

section
variable {x : List Byte} {i : Nat} {v : Byte}

/-- `runLen` is the largest count, up to 128, of bytes equal to the one at the index (spec/41 R149). -/
theorem le_runLen_iff (hv : x[i]? = some v) (M : Nat) :
    M ≤ runLen x i ↔ M ≤ 128 ∧ ∀ j < M, x[i + j]? = some v := by
  simp only [runLen, hv, le_min_iff, le_length_takeWhile_iff, List.getElem?_drop]

theorem runLen_pos (hv : x[i]? = some v) : 1 ≤ runLen x i :=
  (le_runLen_iff hv 1).mpr ⟨by omega, by simpa using hv⟩

theorem two_le_runLen (hv : x[i]? = some v) (hw : x[i + 1]? = some v) : 2 ≤ runLen x i :=
  (le_runLen_iff hv 2).mpr ⟨by omega, fun j hj => by
    obtain rfl | rfl : j = 0 ∨ j = 1 := by omega
    · exact hv
    · exact hw⟩

theorem runLen_le (hv : x[i]? = some v) : runLen x i ≤ 128 := ((le_runLen_iff hv _).mp le_rfl).1

theorem getElem?_of_lt_runLen (hv : x[i]? = some v) {j : Nat} (hj : j < runLen x i) : x[i + j]? = some v :=
  ((le_runLen_iff hv _).mp le_rfl).2 j hj

/-- A run ends at 128 bytes, or where the next byte is no more of it. -/
theorem runLen_stops (hv : x[i]? = some v) (h : runLen x i ≠ 128) : x[i + runLen x i]? ≠ some v := by
  intro hnext
  have hlonger : runLen x i + 1 ≤ runLen x i := by
    refine (le_runLen_iff hv _).mpr ⟨by have := runLen_le hv; omega, fun j hj => ?_⟩
    rcases Nat.lt_succ_iff_lt_or_eq.mp hj with hj | rfl
    · exact getElem?_of_lt_runLen hv hj
    · exact hnext
  omega

/-- The run lies inside the sequence. -/
theorem add_runLen_le (hv : x[i]? = some v) : i + runLen x i ≤ x.length := by
  have hpos := runLen_pos hv
  obtain ⟨hlt, -⟩ := List.getElem?_eq_some_iff.mp
    (getElem?_of_lt_runLen hv (show runLen x i - 1 < runLen x i by omega))
  omega

/-! ### The recursion -/

/-- Fuel beyond the bytes left changes nothing. -/
theorem encFuel_eq_encFuel (fuel fuel' : Nat) (h : x.length - i ≤ fuel) (h' : x.length - i ≤ fuel')
    (lit : List Byte) : encFuel fuel x i lit = encFuel fuel' x i lit := by
  induction fuel generalizing fuel' i lit with
  | zero =>
    have hend : x[i]? = none := List.getElem?_eq_none (by omega)
    cases fuel' <;> simp [encFuel, hend]
  | succ fuel ih =>
    cases fuel' with
    | zero =>
      have hend : x[i]? = none := List.getElem?_eq_none (by omega)
      simp [encFuel, hend]
    | succ fuel' =>
      cases hv : x[i]? with
      | none => simp [encFuel, hv]
      | some v =>
        have hpos := runLen_pos hv
        simp only [encFuel, hv, ih (i := i + 1) fuel' (by omega) (by omega),
          ih (i := i + runLen x i) fuel' (by omega) (by omega)]

/-- `enc` is its own unfolding while input is left. -/
theorem enc_eq_encFuel (hv : x[i]? = some v) (lit : List Byte) :
    enc x i lit = encFuel (x.length - (i + 1) + 1) x i lit := by
  obtain ⟨hlt, -⟩ := List.getElem?_eq_some_iff.mp hv
  exact encFuel_eq_encFuel _ _ (by omega) (by omega) lit

theorem enc_end (hi : x.length ≤ i) (lit : List Byte) : enc x i lit = [] := by
  rw [enc, Nat.sub_eq_zero_of_le hi, encFuel]

theorem enc_last (hi : i + 1 = x.length) (hv : x[i]? = some v) (lit : List Byte) :
    enc x i lit = lits (lit ++ [v]) := by
  rw [enc_eq_encFuel hv]
  simp [encFuel, hv, hi]

section
variable {w : Byte} (hv : x[i]? = some v) (hw : x[i + 1]? = some w) (hne : w ≠ v)
include hv hw hne

theorem enc_flush {lit : List Byte} (hl : (lit ++ [v]).length = 127) :
    enc x i lit = lits (lit ++ [v]) ++ enc x (i + 1) [] := by
  rw [enc_eq_encFuel hv]
  simp only [encFuel, hv, hw, if_pos hne, if_pos hl]
  rfl

theorem enc_keep {lit : List Byte} (hl : (lit ++ [v]).length ≠ 127) :
    enc x i lit = enc x (i + 1) (lit ++ [v]) := by
  rw [enc_eq_encFuel hv]
  simp only [encFuel, hv, hw, if_pos hne, if_neg hl]
  rfl

end

theorem enc_run (hv : x[i]? = some v) (hw : x[i + 1]? = some v) (lit : List Byte) :
    enc x i lit =
      lits lit ++ [toUnsigned8 (-((runLen x i : Int) - 1)), v] ++ enc x (i + runLen x i) [] := by
  have hpos := runLen_pos hv
  rw [enc_eq_encFuel hv]
  simp only [encFuel, hv, hw, ne_eq, not_true_eq_false, if_false, enc]
  rw [encFuel_eq_encFuel _ (x.length - (i + runLen x i)) (by omega) le_rfl]

end

/-- Settles O8: the branches of `enc`, with `runLen` the largest run length. -/
theorem encoderFunctionRecursion : Obligations.EncoderFunctionRecursion := by
  unfold Obligations.EncoderFunctionRecursion
  intro x i lit
  refine ⟨fun hi => enc_end hi.ge lit, fun v hi hv => enc_last hi hv lit,
    fun v w hv hw hne hl => enc_flush hv hw hne hl, fun v w hv hw hne hl => enc_keep hv hw hne hl,
    fun v hv hw => ⟨runLen x i, ⟨two_le_runLen hv hw, ?_, ?_⟩, ?_, enc_run hv hw lit⟩⟩
  · have hin := add_runLen_le hv
    exact le_min (runLen_le hv) (by omega)
  · exact fun j hj => getElem?_of_lt_runLen hv hj
  · exact fun M _ hM hall => (le_runLen_iff hv M).mpr ⟨(le_min_iff.mp hM).1, hall⟩

/-! ### `enc` does not look back -/

theorem runLen_append (pre x : List Byte) (i : Nat) : runLen (pre ++ x) (pre.length + i) = runLen x i := by
  rw [runLen, runLen, List.getElem?_append_right (by omega), Nat.add_sub_cancel_left, List.drop_length_add_append]

theorem encFuel_append (pre x : List Byte) (fuel i : Nat) (lit : List Byte) :
    encFuel fuel (pre ++ x) (pre.length + i) lit = encFuel fuel x i lit := by
  induction fuel generalizing i lit with
  | zero => rfl
  | succ fuel ih =>
    have hget (j : Nat) : (pre ++ x)[pre.length + j]? = x[j]? := by
      rw [List.getElem?_append_right (by omega), Nat.add_sub_cancel_left]
    simp only [encFuel, Nat.add_assoc, hget, runLen_append, ih]

/-- The bytes before the index do not count. -/
theorem enc_append (pre x lit : List Byte) : enc (pre ++ x) pre.length lit = enc x 0 lit := by
  rw [enc, List.length_append, Nat.add_sub_cancel_left]
  exact encFuel_append pre x x.length 0 lit

/-! ### The recursion on the bytes that are left -/

theorem enc_cons_flush {v w : Byte} (hne : w ≠ v) {lit : List Byte} (hl : (lit ++ [v]).length = 127) (y : List Byte) :
    enc (v :: w :: y) 0 lit = lits (lit ++ [v]) ++ enc (w :: y) 0 [] := by
  rw [enc_flush rfl rfl hne hl]
  exact congrArg (_ ++ ·) (enc_append [v] (w :: y) [])

theorem enc_cons_keep {v w : Byte} (hne : w ≠ v) {lit : List Byte} (hl : (lit ++ [v]).length ≠ 127) (y : List Byte) :
    enc (v :: w :: y) 0 lit = enc (w :: y) 0 (lit ++ [v]) := by
  rw [enc_keep rfl rfl hne hl]
  exact enc_append [v] (w :: y) (lit ++ [v])

/-- `k` bytes `v` and then `rest` begin with a run of exactly `k`: it is the longest that is encoded at once, or the next
byte is no more of it. -/
abbrev RunOf (k : Nat) (v : Byte) (rest : List Byte) : Prop := 2 ≤ k ∧ k ≤ 128 ∧ (k = 128 ∨ rest.head? ≠ some v)

theorem runLen_replicate_append {k : Nat} {v : Byte} {rest : List Byte} (h : RunOf k v rest) :
    runLen (List.replicate k v ++ rest) 0 = k := by
  obtain ⟨hk, hk', hmax⟩ := h
  have hrun : ∀ j < k, (List.replicate k v ++ rest)[0 + j]? = some v := fun j hj => by
    rw [Nat.zero_add, List.getElem?_append_left (by simpa using hj)]
    simp [hj]
  have hv := hrun 0 (by omega)
  refine le_antisymm ?_ ((le_runLen_iff hv k).mpr ⟨hk', hrun⟩)
  rcases hmax with rfl | hmax
  · exact runLen_le hv
  · by_contra hlonger
    apply hmax
    have hnext := getElem?_of_lt_runLen hv (Nat.lt_of_not_le hlonger)
    rwa [Nat.zero_add, List.getElem?_append_right (by simp), List.length_replicate, Nat.sub_self,
      ← List.head?_eq_getElem?] at hnext

/-- One run, encoded after the pending literals (spec/41 R136, R138). -/
theorem enc_replicate_append {k : Nat} {v : Byte} {rest : List Byte} (h : RunOf k v rest) (lit : List Byte) :
    enc (List.replicate k v ++ rest) 0 lit =
      lits lit ++ [toUnsigned8 (-((k : Int) - 1)), v] ++ enc rest 0 [] := by
  obtain ⟨m, rfl⟩ : ∃ m, k = m + 2 := ⟨k - 2, by have := h.1; omega⟩
  rw [enc_run (v := v) rfl rfl, runLen_replicate_append h]
  have hrest := enc_append (List.replicate (m + 2) v) rest []
  rw [List.length_replicate] at hrest
  rw [Nat.zero_add, hrest]

/-- Two equal bytes begin a run. -/
theorem exists_runOf (v : Byte) (y : List Byte) :
    ∃ k rest, RunOf k v rest ∧ v :: v :: y = List.replicate k v ++ rest := by
  have hv : (v :: v :: y)[0]? = some v := rfl
  set x := v :: v :: y
  refine ⟨runLen x 0, x.drop (runLen x 0), ⟨two_le_runLen hv rfl, runLen_le hv, ?_⟩, ?_⟩
  · rw [List.head?_drop, or_iff_not_imp_left]
    intro h
    have hstop := runLen_stops hv h
    rwa [Nat.zero_add] at hstop
  · have htake : x.take (runLen x 0) = List.replicate (runLen x 0) v := by
      refine List.ext_getElem? fun j => ?_
      by_cases hj : j < runLen x 0
      · have hrun := getElem?_of_lt_runLen hv hj
        rw [Nat.zero_add] at hrun
        simp [hj, hrun]
      · simp [hj]
    rw [← htake, List.take_append_drop]

end Sys2Proof.Codec
end

section
/-! The chunks of the encoder: what `encode` emits, read chunk by chunk (spec/41 R134 to R149). -/

namespace Sys2Proof.Machine

/-! ### The chunks -/

/-- The literal chunk of the pending bytes, none for no bytes (spec/41 R133). -/
def pendingChunk (lit : List Byte) : List Chunk := if lit = [] then [] else [.lit lit]

/-- With the literals `lit` pending and the bytes `y` left, the encoder emits the chunks `cs` (spec/41 R134 to R136). -/
inductive Encodes : (lit y : List Byte) → List Chunk → Prop
  | done : Encodes [] [] []
  | last (lit : List Byte) (v : Byte) : Encodes lit [v] [.lit (lit ++ [v])]
  | flush {lit y : List Byte} {v w : Byte} {cs : List Chunk} (hne : w ≠ v) (hl : (lit ++ [v]).length = 127)
      (h : Encodes [] (w :: y) cs) : Encodes lit (v :: w :: y) (.lit (lit ++ [v]) :: cs)
  | keep {lit y : List Byte} {v w : Byte} {cs : List Chunk} (hne : w ≠ v) (hl : (lit ++ [v]).length ≠ 127)
      (h : Encodes (lit ++ [v]) (w :: y) cs) : Encodes lit (v :: w :: y) cs
  | run {lit rest : List Byte} {k : Nat} {v : Byte} {cs : List Chunk} (hk : Codec.RunOf k v rest)
      (h : Encodes [] rest cs) : Encodes lit (List.replicate k v ++ rest) (pendingChunk lit ++ .rep k v :: cs)

/-- The encoder always has chunks to emit, with nothing pending when nothing is left (spec/41 R140). -/
theorem exists_encodes (lit y : List Byte) (h : y = [] → lit = []) : ∃ cs, Encodes lit y cs := by
  induction hn : y.length using Nat.strong_induction_on generalizing lit y with
  | _ n ih =>
    match y with
    | [] => exact ⟨[], by rw [h rfl]; exact .done⟩
    | [v] => exact ⟨_, .last lit v⟩
    | v :: w :: y =>
      have hlt : (w :: y).length < n := by rw [← hn]; exact Nat.lt_succ_self _
      by_cases hne : w ≠ v
      · by_cases hl : (lit ++ [v]).length = 127
        · obtain ⟨cs, hcs⟩ := ih _ hlt [] (w :: y) (by simp) rfl
          exact ⟨_, .flush hne hl hcs⟩
        · obtain ⟨cs, hcs⟩ := ih _ hlt (lit ++ [v]) (w :: y) (by simp) rfl
          exact ⟨_, .keep hne hl hcs⟩
      · obtain rfl := not_not.mp hne
        obtain ⟨k, rest, hk, hy⟩ := Codec.exists_runOf w y
        have hlen := congrArg List.length hy
        rw [hn, List.length_append, List.length_replicate] at hlen
        obtain ⟨cs, hcs⟩ := ih rest.length (by have := hk.1; omega) [] rest (fun _ => rfl) rfl
        rw [hy]
        exact ⟨_, .run hk hcs⟩

theorem streamBytes_append (cs cs' : List Chunk) : streamBytes (cs ++ cs') = streamBytes cs ++ streamBytes cs' :=
  List.flatMap_append

theorem streamOutput_append (cs cs' : List Chunk) : streamOutput (cs ++ cs') = streamOutput cs ++ streamOutput cs' :=
  List.flatMap_append

@[simp] theorem streamBytes_pendingChunk (lit : List Byte) : streamBytes (pendingChunk lit) = Codec.lits lit := by
  unfold pendingChunk Codec.lits
  split <;> simp [streamBytes, Chunk.bytes]

@[simp] theorem streamOutput_pendingChunk (lit : List Byte) : streamOutput (pendingChunk lit) = lit := by
  unfold pendingChunk
  split <;> simp_all [streamOutput, Chunk.output]

/-- A literal chunk is what `lits` emits. -/
theorem lit_bytes_eq_lits {data : List Byte} (h : data ≠ []) : (Chunk.lit data).bytes = Codec.lits data := by
  rw [Codec.lits, if_neg h, Chunk.bytes]

/-- `enc` emits the bytes of the encoder's chunks. -/
theorem Encodes.enc_eq {lit y : List Byte} {cs : List Chunk} (h : Encodes lit y cs) :
    Codec.enc y 0 lit = streamBytes cs := by
  induction h with
  | done => rfl
  | last lit v =>
    rw [Codec.enc_last rfl rfl, streamBytes_cons, lit_bytes_eq_lits (by simp)]
    exact (List.append_nil _).symm
  | flush hne hl _ ih => rw [Codec.enc_cons_flush hne hl, ih, streamBytes_cons, lit_bytes_eq_lits (by simp)]
  | keep hne hl _ ih => rw [Codec.enc_cons_keep hne hl, ih]
  | run hk _ ih =>
    rw [Codec.enc_replicate_append hk, ih, streamBytes_append, streamBytes_pendingChunk, streamBytes_cons,
      List.append_assoc]
    rfl

/-- `encode` emits the bytes of the encoder's chunks for the whole input. -/
theorem encode_encodes (x : List Byte) : ∃ cs, Encodes [] x cs ∧ Codec.encode x = streamBytes cs :=
  (exists_encodes [] x fun _ => rfl).imp fun _ h => ⟨h, h.enc_eq⟩

/-- The chunks stand for the pending literals and the bytes left. -/
theorem Encodes.output {lit y : List Byte} {cs : List Chunk} (h : Encodes lit y cs) : streamOutput cs = lit ++ y := by
  induction h with
  | done => rfl
  | last lit v => exact List.append_nil _
  | flush _ _ _ ih => simp [streamOutput_cons, ih, Chunk.output]
  | keep _ _ _ ih => simp [ih]
  | run _ _ ih => simp [streamOutput_append, streamOutput_cons, ih, Chunk.output]

/-! ### The shape of the output -/

/-- A literal buffer that the encoder may hold before the bytes `y`: it is not full, and no two bytes of it are equal,
nor its last and the next one (spec/41 R135, R146). -/
structure Pending (lit y : List Byte) : Prop where
  short : lit.length ≤ 126
  chain : (lit ++ y.head?.toList).IsChain (· ≠ ·)

theorem Pending.nil (y : List Byte) : Pending [] y := ⟨by simp, by cases y <;> simp⟩

theorem Pending.snoc {lit y : List Byte} {v w : Byte} (h : Pending lit (v :: y)) (hne : w ≠ v)
    (hl : (lit ++ [v]).length ≠ 127) (y' : List Byte) : Pending (lit ++ [v]) (w :: y') := by
  obtain ⟨short, chain⟩ := h
  rw [List.length_append, List.length_singleton] at hl
  refine ⟨by rw [List.length_append, List.length_singleton]; omega, ?_⟩
  rw [List.append_assoc]
  exact List.isChain_append_cons_cons.mpr ⟨chain, hne.symm, List.isChain_singleton w⟩

/-- The literals with the byte at the cursor are a chunk of the encoder's subset (spec/41 R142, R146). -/
theorem Pending.encoderChunk_snoc {lit y : List Byte} {v : Byte} (h : Pending lit (v :: y)) :
    encoderChunk (.lit (lit ++ [v])) := by
  obtain ⟨short, chain⟩ := h
  have hlen : (lit ++ [v]).length = lit.length + 1 := by simp
  exact ⟨by omega, by omega, chain⟩

theorem Pending.encoderChunk_pending {lit y : List Byte} (h : Pending lit y) :
    ∀ c ∈ pendingChunk lit, encoderChunk c := by
  intro c hc
  unfold pendingChunk at hc
  split at hc
  · simp at hc
  · next hne =>
    obtain rfl := List.mem_singleton.mp hc
    exact ⟨List.length_pos_iff.mpr hne, Nat.le_succ_of_le h.short, h.chain.left_of_append⟩

/-- The last literal before a run is not of the run's value (spec/41 R146). -/
theorem Pending.getLast?_ne {lit rest : List Byte} {k : Nat} {v : Byte} (hk : Codec.RunOf k v rest)
    (h : Pending lit (List.replicate k v ++ rest)) : lit.getLast? ≠ some v := by
  intro hlast
  have hhead : (List.replicate k v ++ rest).head? = some v := by
    simp [List.head?_append, List.head?_replicate, show k ≠ 0 by have := hk.1; omega]
  have hne := (List.isChain_append.mp h.chain).2.2 v hlast v (by simp [hhead])
  exact hne rfl

/-- Every chunk is of the encoder's subset. -/
theorem Encodes.encoderChunk {lit y : List Byte} {cs : List Chunk} (h : Encodes lit y cs) (hp : Pending lit y) :
    ∀ c ∈ cs, encoderChunk c := by
  induction h with
  | done => simp
  | last lit v => exact List.forall_mem_singleton.mpr hp.encoderChunk_snoc
  | flush _ _ _ ih => exact List.forall_mem_cons.mpr ⟨hp.encoderChunk_snoc, ih (.nil _)⟩
  | keep hne hl _ ih => exact ih (hp.snoc hne hl _)
  | run hk _ ih =>
    exact List.forall_mem_append.mpr
      ⟨hp.encoderChunk_pending, List.forall_mem_cons.mpr ⟨⟨hk.1, hk.2.1⟩, ih (.nil _)⟩⟩

theorem encoderChunk_wf {c : Chunk} (h : encoderChunk c) : c.wf := by
  cases c with
  | lit data => exact (Chunk.wf_lit data).mpr ⟨h.1, Nat.le_succ_of_le h.2.1⟩
  | rep k v => exact (Chunk.wf_rep k v).mpr h
  | nop => exact h.elim

theorem Encodes.wf {lit y : List Byte} {cs : List Chunk} (h : Encodes lit y cs) (hp : Pending lit y) :
    ∀ c ∈ cs, c.wf := fun c hc => encoderChunk_wf (h.encoderChunk hp c hc)

/-- Which chunks may stand next to each other (spec/41 R141, R146). -/
def encoderFollows : Chunk → Chunk → Prop
  | .lit data, .rep _ v => data.getLast? ≠ some v
  | .lit data, .lit _ => data.length = 127
  | .lit _, .nop => True
  | .rep _ _, _ => True
  | .nop, _ => True

/-- A repeat chunk at the head of the encoder's chunks is of the first byte they stand for. -/
theorem Encodes.head_rep {w v : Byte} {y : List Byte} {k : Nat} {cs : List Chunk}
    (h : Encodes [] (w :: y) (.rep k v :: cs)) : v = w := by
  have hk := h.encoderChunk (.nil _) (.rep k v) (List.mem_cons_self ..)
  obtain ⟨m, rfl⟩ : ∃ m, k = m + 1 := ⟨k - 1, by have := hk.1; omega⟩
  have hout := h.output
  rw [streamOutput_cons] at hout
  exact (List.cons.inj hout).1

/-- After a full literal chunk stands another literal, or a repeat of the next byte, which is not the chunk's last
(spec/41 R135). -/
theorem Encodes.follows_full {lit y : List Byte} {v w : Byte} {cs : List Chunk} (hne : w ≠ v)
    (hl : (lit ++ [v]).length = 127) (h : Encodes [] (w :: y) cs) :
    ∀ c ∈ cs.head?, encoderFollows (.lit (lit ++ [v])) c := by
  intro c hc
  cases cs with
  | nil => simp at hc
  | cons d cs =>
    obtain rfl : d = c := by simpa using hc
    cases d with
    | lit data => exact hl
    | rep k u =>
      obtain rfl := h.head_rep
      simpa [encoderFollows] using hne.symm
    | nop => trivial

theorem Encodes.follows {lit y : List Byte} {cs : List Chunk} (h : Encodes lit y cs) (hp : Pending lit y) :
    cs.IsChain encoderFollows := by
  induction h with
  | done => exact .nil
  | last lit v => exact List.isChain_singleton _
  | flush hne hl h ih => exact (ih (.nil _)).cons (h.follows_full hne hl)
  | keep hne hl _ ih => exact ih (hp.snoc hne hl _)
  | @run lit rest k v cs hk _ ih =>
    have hrep : (Chunk.rep k v :: cs).IsChain encoderFollows := (ih (.nil _)).cons fun _ _ => trivial
    unfold pendingChunk
    split
    · exact hrep
    · exact hrep.cons fun c hc => by
        obtain rfl : .rep k v = c := by simpa using hc
        exact hp.getLast?_ne hk

/-- Settles O12: the encoder's chunks, each of its subset, and each pair that stands together. -/
theorem encoderEmitsOnlyItsChunks : Obligations.EncoderEmitsOnlyItsChunks := by
  unfold Obligations.EncoderEmitsOnlyItsChunks
  intro x
  obtain ⟨cs, hcs, hx⟩ := encode_encodes x
  have hfollows := List.isChain_iff_forall_rel_of_append_cons_cons.mp (hcs.follows (.nil x))
  exact ⟨cs, hx, hcs.encoderChunk (.nil x), fun _ _ _ _ _ heq => hfollows heq, fun _ _ _ _ heq => hfollows heq⟩

/-! ### The round trip -/

/-- Settles O10: `decode` gives what the chunks of a stream stand for, and the encoder's chunks stand for the input. -/
theorem decodeOfEncodeIsTheInput : Obligations.DecodeOfEncodeIsTheInput := by
  unfold Obligations.DecodeOfEncodeIsTheInput
  intro x
  obtain ⟨cs, hcs, hx⟩ := encode_encodes x
  exact ((decodeFollowsTheGrammar _).1 x).mpr ⟨cs, hcs.wf (.nil x), hx, hcs.output.symm⟩

/-! ### The length -/

@[simp] theorem Chunk.bytes_lit_length (data : List Byte) : (Chunk.lit data).bytes.length = data.length + 1 := rfl
@[simp] theorem Chunk.bytes_rep_length (k : Nat) (v : Byte) : (Chunk.rep k v).bytes.length = 2 := rfl

/-- Each step pays for its own chunks out of 4 bytes in 3: a full literal, or a repeat of two bytes or more together with
the literal it follows. The last literal needs two thirds of a byte more. -/
theorem Encodes.length_le {lit y : List Byte} {cs : List Chunk} (h : Encodes lit y cs) :
    3 * (streamBytes cs).length ≤ 4 * (lit.length + y.length) + 2 := by
  induction h with
  | done => exact Nat.zero_le _
  | last lit v =>
    rw [streamBytes_cons]
    simp only [List.length_append, Chunk.bytes_lit_length, List.length_singleton, streamBytes, List.flatMap_nil,
      List.length_nil]
    omega
  | flush _ hl _ ih =>
    rw [streamBytes_cons]
    simp only [List.length_append, Chunk.bytes_lit_length, List.length_cons, List.length_nil] at hl ih ⊢
    omega
  | keep _ _ _ ih =>
    simp only [List.length_append, List.length_cons, List.length_nil] at ih ⊢
    omega
  | @run lit rest k v cs hk _ ih =>
    have hk2 := hk.1
    rw [streamBytes_append, streamBytes_pendingChunk, streamBytes_cons]
    simp only [List.length_append, Codec.lits_length, Chunk.bytes_rep_length, List.length_replicate,
      List.length_nil] at ih ⊢
    split
    · omega
    · next hne =>
      have hpos := List.length_pos_iff.mpr hne
      omega

/-- Settles O11: by the length of each of the encoder's chunks. -/
theorem encodedLengthIsBounded : Obligations.EncodedLengthIsBounded := by
  unfold Obligations.EncodedLengthIsBounded
  intro x
  obtain ⟨cs, hcs, hx⟩ := encode_encodes x
  have hlen := hcs.length_le
  rw [List.length_nil, ← hx] at hlen
  omega

end Sys2Proof.Machine
end

section
/-! The control bytes of the encoder's chunks as numbers (spec/41 R133, R138), and how a long run is split
(spec/41 R145). -/

namespace Sys2Proof

theorem toUnsigned8_litLength {k : Nat} (hk : 1 ≤ k) : toUnsigned8 ((k : Int) - 1) = BitVec.ofNat 8 (k - 1) := by
  rw [toUnsigned8_eq_iff, BitVec.toNat_ofNat]
  omega

theorem toUnsigned8_repLength {k : Nat} (hk : k ≤ 257) :
    toUnsigned8 (-((k : Int) - 1)) = BitVec.ofNat 8 (257 - k) := by
  rw [toUnsigned8_eq_iff, BitVec.toNat_ofNat]
  omega

end Sys2Proof

namespace Sys2Proof.Codec

theorem lits_singleton (v : Byte) : lits [v] = [0x00#8, v] := rfl

/-- A run gives its repeats of 128 and leaves the remainder to be scanned anew. A run of 128 or more also flushes the
pending literals. -/
theorem enc_run_split (v : Byte) (rest : List Byte) (q r : Nat) (lit : List Byte) (h : 1 ≤ q ∨ lit = []) :
    enc (List.replicate (128 * q + r) v ++ rest) 0 lit =
      lits lit ++ (List.replicate q [0x81#8, v]).flatten ++ enc (List.replicate r v ++ rest) 0 [] := by
  induction q generalizing lit with
  | zero =>
    obtain rfl : lit = [] := h.resolve_left (Nat.not_succ_le_zero 0)
    simp [lits]
  | succ q ih =>
    have hrun : RunOf 128 v (List.replicate (128 * q + r) v ++ rest) := ⟨by omega, le_rfl, .inl rfl⟩
    rw [show 128 * (q + 1) + r = 128 + (128 * q + r) by omega, List.replicate_add, List.append_assoc,
      enc_replicate_append hrun, ih [] (.inr rfl), List.replicate_succ, List.flatten_cons]
    simp only [List.append_assoc]
    rfl

section
variable {m : Nat} {v : Byte} {rest lit : List Byte}

theorem enc_run_divided (h : 128 ≤ m ∨ lit = []) :
    enc (List.replicate m v ++ rest) 0 lit =
      lits lit ++ (List.replicate (m / 128) [0x81#8, v]).flatten ++
        enc (List.replicate (m % 128) v ++ rest) 0 [] := by
  have hsplit := enc_run_split v rest (m / 128) (m % 128) lit (h.imp_left fun hm => by omega)
  rwa [Nat.div_add_mod] at hsplit

/-- A remainder of two bytes or more is one repeat, whether or not it is the whole run. -/
theorem enc_run_remainder (hm : 2 ≤ m % 128) (hrest : rest.head? ≠ some v) :
    enc (List.replicate m v ++ rest) 0 lit =
      lits lit ++ (List.replicate (m / 128) [0x81#8, v]).flatten ++
        [BitVec.ofNat 8 (257 - m % 128), v] ++ enc rest 0 [] := by
  have hrun : RunOf (m % 128) v rest := ⟨hm, by omega, .inr hrest⟩
  by_cases h : 128 ≤ m
  · rw [enc_run_divided (.inl h), enc_replicate_append hrun, toUnsigned8_repLength (by omega)]
    simp [lits]
  · have hmod : m % 128 = m := Nat.mod_eq_of_lt (by omega)
    rw [hmod] at hrun
    rw [hmod, Nat.div_eq_of_lt (by omega), enc_replicate_append hrun, toUnsigned8_repLength (by omega)]
    simp

end

/-- An input of equal bytes (spec/41 R145). -/
theorem encode_replicate (m : Nat) (v : Byte) :
    encode (List.replicate m v) =
      (List.replicate (m / 128) [0x81#8, v]).flatten ++
      (if m % 128 = 0 then [] else if m % 128 = 1 then [0x00#8, v] else [BitVec.ofNat 8 (257 - m % 128), v]) := by
  rw [encode, ← List.append_nil (List.replicate m v)]
  split
  · next h => rw [enc_run_divided (.inr rfl), h]; rfl
  · split
    · next h => rw [enc_run_divided (.inr rfl), h]; rfl
    · rw [enc_run_remainder (by omega) (by simp)]
      exact List.append_nil _

/-- Settles O13: the run at the cursor gives its repeats of 128, and what `enc` makes of the remainder is a case of its
recursion. -/
theorem longRunsAreSplit : Obligations.LongRunsAreSplit := by
  unfold Obligations.LongRunsAreSplit
  refine ⟨encode_replicate, ?_⟩
  rintro x before after lit m v rfl hm hafter
  have hcursor := enc_append before (List.replicate m v ++ after) lit
  have hnext (l : List Byte) : enc (before ++ List.replicate m v ++ after) (before.length + m) l = enc after 0 l := by
    have h := enc_append (before ++ List.replicate m v) after l
    rwa [List.length_append, List.length_replicate] at h
  rw [← List.append_assoc] at hcursor
  simp only [hcursor, hnext]
  refine ⟨fun h => ?_, fun h => enc_run_remainder h hafter, fun h hend => ?_, fun h hne => ?_⟩
  · rw [enc_run_divided (.inl (by omega)), h]
    rfl
  · rw [enc_run_divided (.inl (by omega)), h, hend]
    rfl
  · obtain ⟨w, y, rfl⟩ := List.exists_cons_of_ne_nil hne
    have hwv : w ≠ v := by simpa using hafter
    rw [enc_run_divided (.inl (by omega)), h]
    exact congrArg (_ ++ ·) (enc_cons_keep hwv (by simp) y)

end Sys2Proof.Codec
end

section
/-! ENC_STEP (spec/41 R132 to R139): the length of a run, and what each case of the step does. -/

namespace Sys2Proof.Codec

theorem lits_of_ne_nil {l : List Byte} (h : l ≠ []) : lits l = BitVec.ofNat 8 (l.length - 1) :: l := by
  rw [lits, if_neg h, toUnsigned8_litLength (List.length_pos_iff.mpr h)]

theorem lits_concat (l : List Byte) (v : Byte) : lits (l ++ [v]) = BitVec.ofNat 8 l.length :: (l ++ [v]) := by
  rw [lits_of_ne_nil (by simp), List.length_append, List.length_singleton, Nat.add_sub_cancel]

end Sys2Proof.Codec

namespace Sys2Proof.Machine

/-! ### The length of a run -/

/-- From a length `L` the scan goes on to the largest length, up to 128, whose bytes are all of the run. -/
theorem State.le_scanRun_iff (s : State) (v : Byte) (fuel L : Nat) (hL : L + fuel = 128) {M : Nat} (hM : L ≤ M) :
    M ≤ s.scanRun v fuel L ↔ M ≤ 128 ∧ ∀ j, L ≤ j → j < M → s.input? (s.i + j) = some v := by
  induction fuel generalizing L with
  | zero =>
    obtain rfl : L = 128 := hL
    exact ⟨fun h => ⟨h, fun j hj hjM => absurd (Nat.lt_of_lt_of_le hjM h) (Nat.not_lt.mpr hj)⟩, fun h => h.1⟩
  | succ fuel ih =>
    rcases Nat.eq_or_lt_of_le hM with rfl | hlt
    · exact iff_of_true (s.le_scanRun v _ L) ⟨by omega, fun j hj hjL => absurd hjL (Nat.not_lt.mpr hj)⟩
    · rw [State.scanRun]
      split
      · next hc =>
        rw [ih (L + 1) (by omega) hlt]
        refine and_congr_right fun _ => ⟨fun h j hj hjM => ?_, fun h j hj hjM => h j (by omega) hjM⟩
        rcases Nat.eq_or_lt_of_le hj with rfl | hj
        · exact hc.2.2
        · exact h j hj hjM
      · next hc =>
        refine iff_of_false (Nat.not_le.mpr hlt) fun ⟨hM, h⟩ => hc ?_
        have hbyte := h L le_rfl hlt
        refine ⟨by omega, ?_, hbyte⟩
        by_contra hout
        simp [State.input?, hout] at hbyte

section
variable {s : State} {v : Byte} (hv : s.input? s.i = some v) (hw : s.input? (s.i + 1) = some v)
include hv hw

theorem State.le_runLength_iff (M : Nat) :
    M ≤ s.runLength v ↔ M ≤ 128 ∧ ∀ j < M, s.input? (s.i + j) = some v := by
  have hfirst : ∀ j < 2, s.input? (s.i + j) = some v := fun j hj => by
    obtain rfl | rfl : j = 0 ∨ j = 1 := by omega
    · exact hv
    · exact hw
  rcases Nat.lt_or_ge M 2 with hM | hM
  · exact iff_of_true (by have := s.le_scanRun v 126 2; unfold State.runLength; omega)
      ⟨by omega, fun j hj => hfirst j (by omega)⟩
  · rw [State.runLength, s.le_scanRun_iff v 126 2 rfl hM]
    refine and_congr_right fun _ => ⟨fun h j hj => ?_, fun h j _ hj => h j hj⟩
    rcases Nat.lt_or_ge j 2 with hj2 | hj2
    · exact hfirst j hj2
    · exact h j hj2 hj

/-- The run that the machine scans is the one of the pure function. -/
theorem State.runLength_eq_runLen (hf : s.inputFits) : s.runLength v = Codec.runLen s.inputSeq s.i := by
  have hv' := hv
  rw [State.input?_eq_inputSeq hf] at hv'
  refine eq_of_forall_le_iff fun M => ?_
  rw [State.le_runLength_iff hv hw, Codec.le_runLen_iff hv']
  simp only [State.input?_eq_inputSeq hf]

theorem State.runLength_le : s.runLength v ≤ 128 := ((State.le_runLength_iff hv hw _).mp le_rfl).1

end

theorem State.inputSeq_inside {s : State} {k : Nat} (hk : k < s.n.toNat) : s.inputSeq[k]? = some (s.ibufByte k) := by
  rw [State.inputSeq_get?, if_pos hk]

/-- Settles O40: `runLength` is `runLen` of the input sequence, of which the bound, the equal bytes and the maximality are
known. -/
theorem runLengthIsTheLargest : Obligations.RunLengthIsTheLargest := by
  unfold Obligations.RunLengthIsTheLargest
  intro s v hf hi hv hw
  have hv' := State.inputSeq_inside (s := s) (k := s.i) (by omega)
  have hw' := State.inputSeq_inside hi
  rw [hv] at hv'
  rw [hw] at hw'
  rw [State.runLength_eq_runLen (by rw [State.input?_eq_inputSeq hf, hv'])
    (by rw [State.input?_eq_inputSeq hf, hw']) hf]
  have hin := Codec.add_runLen_le hv'
  rw [State.inputSeq_length] at hin
  refine ⟨Codec.two_le_runLen hv' hw', le_min (Codec.runLen_le hv') (by omega), fun j hj => ?_, fun M hM h => ?_⟩
  · have hbyte := Codec.getElem?_of_lt_runLen hv' hj
    rw [State.inputSeq_inside (by omega)] at hbyte
    exact Option.some.inj hbyte
  · rw [le_min_iff] at hM
    exact (Codec.le_runLen_iff hv' M).mpr ⟨hM.1, fun j hj => by rw [State.inputSeq_inside (by omega), h j hj]⟩

/-! ### The cases of the step -/

section
variable {s : State} (hf : s.inputFits)
include hf

theorem execEncode_last (hi : s.i + 1 = s.n.toNat) : execEncode s = endStep (s.encodeLast (s.ibufByte s.i)) := by
  rw [execEncode, if_neg (by omega), State.input?_inside (by omega) hf]
  exact if_pos hi

section
variable (hi : s.i + 1 < s.n.toNat)
include hi

theorem execEncode_different (hne : s.ibufByte (s.i + 1) ≠ s.ibufByte s.i) :
    execEncode s = endStep (s.encodeDifferent (s.ibufByte s.i)) := by
  rw [execEncode, if_neg (by omega), State.input?_inside (by omega) hf]
  simp only [if_neg hi.ne, State.input?_inside hi hf, if_pos hne]

theorem execEncode_equal (heq : s.ibufByte (s.i + 1) = s.ibufByte s.i) :
    execEncode s = endStep (s.encodeEqual (s.ibufByte s.i)) := by
  rw [execEncode, if_neg (by omega), State.input?_inside (by omega) hf]
  simp only [if_neg hi.ne, State.input?_inside hi hf, heq, ne_eq, not_true_eq_false, if_false]

/-- At two equal bytes the machine's run is the one of the pure function. -/
theorem State.runLength_at_run (heq : s.ibufByte (s.i + 1) = s.ibufByte s.i) :
    s.runLength (s.ibufByte s.i) = Codec.runLen s.inputSeq s.i ∧ s.runLength (s.ibufByte s.i) ≤ 128 := by
  have hv := State.input?_inside (s := s) (k := s.i) (by omega) hf
  have hw := State.input?_inside hi hf
  rw [heq] at hw
  exact ⟨State.runLength_eq_runLen hv hw hf, State.runLength_le hv hw⟩

end
end

/-! ### What a step emits -/

/-- A state after an emission, field by field. -/
theorem State.emitted_spec (s : State) {bs : List Byte} {k : Nat} (hk : bs.length = k) (i : Nat) (l : List Byte) :
    ({ s.emitted bs with i := i, lit := l } : State) =
      { s with i := i, lit := l, o := s.o + k, obuf := (s.emitted bs).obuf } ∧
    WritesAt s { s.emitted bs with i := i, lit := l } s.o bs := by
  subst hk
  exact ⟨rfl, s.emitted_writesAt bs⟩

/-- Settles O41: the literal chunk of the buffer and the last byte fits. -/
theorem encodeTakesTheLastByte : Obligations.EncodeTakesTheLastByte := by
  unfold Obligations.EncodeTakesTheLastByte
  intro s hf hi _ ho
  have hlen : (Codec.lits (s.lit ++ [s.ibufByte s.i])).length = s.lit.length + 2 := by simp [Codec.lits_length]
  rw [exec, execEncode_last hf hi, State.encodeLast_eq, if_pos (.inr (hlen ▸ ho)), ← Codec.lits_concat, ← hi]
  exact ⟨_, rfl, s.emitted_spec hlen _ _⟩

/-- Settles O42: the byte joins the buffer, which is emitted when it is full and fits. -/
theorem encodeTakesADifferentByte : Obligations.EncodeTakesADifferentByte := by
  unfold Obligations.EncodeTakesADifferentByte
  intro s hf hi hne
  rw [exec, execEncode_different hf hi hne, State.encodeDifferent_eq]
  refine ⟨fun hl => ?_, fun hl ho => ?_⟩
  · rw [if_neg (by omega), endStep_ok]
  · have hlen : (Codec.lits (s.lit ++ [s.ibufByte s.i])).length = 128 := by simp [Codec.lits_length, hl]
    have hchunk := Codec.lits_concat s.lit (s.ibufByte s.i)
    rw [hl] at hchunk
    rw [if_pos (by omega), if_pos (.inr (hlen ▸ ho)), ← hchunk]
    exact ⟨_, rfl, s.emitted_spec hlen _ _⟩

theorem State.runBytes_length (s : State) (v : Byte) :
    (s.runBytes v).length = if s.lit = [] then 2 else s.lit.length + 3 := by
  rw [State.runBytes, List.length_append, Codec.lits_length]
  split <;> rfl

/-- Settles O43: the bytes of the run, after those of the buffer, fit. -/
theorem encodeTakesARun : Obligations.EncodeTakesARun := by
  unfold Obligations.EncodeTakesARun
  rintro s L hf hi heq _ rfl
  have hrun := (State.runLength_at_run hf hi heq).2
  have hcontrol : repControl (s.runLength (s.ibufByte s.i)) = BitVec.ofNat 8 (257 - s.runLength (s.ibufByte s.i)) :=
    toUnsigned8_repLength (by omega)
  have hlen := s.runBytes_length (s.ibufByte s.i)
  have hstep (ho : s.o + (s.runBytes (s.ibufByte s.i)).length ≤ s.platform.outCap) :
      exec .encode s = .next { s.emitted (s.runBytes (s.ibufByte s.i)) with
        i := s.i + s.runLength (s.ibufByte s.i), lit := [] } := by
    rw [exec, execEncode_equal hf hi heq]
    rcases s.encodeEqual_cases (s.ibufByte s.i) with ⟨-, he⟩ | ⟨hover, -⟩
    · rw [he, endStep_ok]
    · omega
  refine ⟨fun hl ho => ?_, fun hl ho => ?_⟩
  · rw [if_pos hl] at hlen
    have hbytes : s.runBytes (s.ibufByte s.i) =
        [BitVec.ofNat 8 (257 - s.runLength (s.ibufByte s.i)), s.ibufByte s.i] := by
      rw [State.runBytes, hl, hcontrol]; rfl
    obtain ⟨hspec, hwrites⟩ := s.emitted_spec hlen (s.i + s.runLength (s.ibufByte s.i)) []
    rw [hstep (by omega)]
    exact ⟨_, rfl, hspec.trans (by rw [hl]), hbytes ▸ hwrites⟩
  · rw [if_neg hl] at hlen
    have hbytes : s.runBytes (s.ibufByte s.i) = BitVec.ofNat 8 (s.lit.length - 1) :: s.lit ++
        [BitVec.ofNat 8 (257 - s.runLength (s.ibufByte s.i)), s.ibufByte s.i] := by
      rw [State.runBytes, Codec.lits_of_ne_nil hl, hcontrol]
    rw [hstep (by omega), ← hbytes]
    exact ⟨_, rfl, s.emitted_spec hlen _ _⟩

theorem State.overflowed_eq {s : State} (ho : s.o ≤ s.platform.outCap) :
    s.overflowed = { s.lost 0x42#32 with o := s.platform.outCap } := by
  rw [State.overflowed, Nat.max_eq_right ho]

/-- Settles O44: in each case the bytes of the step do not fit. -/
theorem encodeStepOverflows : Obligations.EncodeStepOverflows := by
  unfold Obligations.EncodeStepOverflows
  intro s hf _ ho _
  have hlen : (Codec.lits (s.lit ++ [s.ibufByte s.i])).length = s.lit.length + 2 := by simp [Codec.lits_length]
  have hnofit (h : s.platform.outCap < s.o + (s.lit.length + 2)) :
      ¬ s.fits (Codec.lits (s.lit ++ [s.ibufByte s.i])) := by
    rintro (hnil | hfits)
    · simp at hnil
    · omega
  refine ⟨fun hi h => ?_, fun hi hne hl h => ?_, fun hi heq h => ?_⟩
  · rw [exec, execEncode_last hf hi, State.encodeLast_eq, if_neg (hnofit h), State.overflowed_eq ho, endStep_error]
  · rw [exec, execEncode_different hf hi hne, State.encodeDifferent_eq, if_pos (by omega),
      if_neg (hnofit (by omega)), State.overflowed_eq ho, endStep_error]
  · rw [exec, execEncode_equal hf hi heq]
    rw [← s.runBytes_length (s.ibufByte s.i)] at h
    rcases s.encodeEqual_cases (s.ibufByte s.i) with ⟨hfits, -⟩ | ⟨-, l, he⟩
    · omega
    · rw [he, State.overflowed_eq ho]
      exact ⟨_, rfl, rfl⟩

/-! ### The cursors -/

/-- Settles O55: of a running codec command the turn is its unit's step, which moves its cursor. -/
theorem cursorsAdvance : Obligations.CursorsAdvance := by
  unfold Obligations.CursorsAdvance
  intro s t h hs hp hturn ht hb
  obtain ⟨rest, hrest⟩ : ∃ rest, s.schedule = [] ∧ rest = [] ∨ s.schedule = .blockTurn :: rest :=
    hturn.elim (fun h => ⟨[], .inl ⟨h, rfl⟩⟩) fun ⟨rest, h⟩ => ⟨rest, .inr h⟩
  have hr := (h.scheduled rest).running hs
  have hfits := (hr.checked hp).2
  rw [step_turn hrest] at ht
  refine ⟨fun hop => ?_, fun hop => ?_⟩
  · rw [perform_encode (s := { s with schedule := rest }) hs hp hop] at ht
    obtain ⟨u, hu, hadv⟩ := execEncode_advances (hfits (isCodecCommand_iff.mpr (.inl hop))) hr.cursors.1
    cases hu.symm.trans ht
    exact hadv.resolve_left (by simp [hb])
  · rw [perform_decode (s := { s with schedule := rest }) hs hp hop] at ht
    obtain ⟨u, hu, hadv⟩ := execDecode_advances (hfits (isCodecCommand_iff.mpr (.inr hop))) hr.cursors.2.1
    cases hu.symm.trans ht
    exact hadv.resolve_left (by simp [hb])

end Sys2Proof.Machine
end

section
/-! The RUN steps of ENCODE and DECODE against `enc` and `dec` (spec/41 R149, spec/42 R183). -/

namespace Sys2Proof.Machine

/-! ### The recursion of `dec` at an index -/

/-- Fuel beyond the bytes left changes nothing. -/
theorem decFuel_eq_dec (y : List Byte) {p fuel : Nat} (h : y.length - p ≤ fuel) :
    Codec.decFuel fuel y p = Codec.dec y p := by
  rw [Codec.dec]
  rcases Nat.lt_or_ge y.length p with hp | hp
  · have hend : y[p]? = none := List.getElem?_eq_none hp.le
    rw [Nat.sub_eq_zero_of_le hp.le]
    cases fuel <;> simp [Codec.decFuel, hend]
  · have hlook (f : Nat) : Codec.decFuel f y p = Codec.decFuel f (y.drop p) 0 := by
      have happ := decFuel_append (y.take p) (y.drop p) f 0
      rwa [List.take_append_drop, List.length_take, Nat.min_eq_left hp] at happ
    have hlen : (y.drop p).length = y.length - p := List.length_drop
    rw [hlook, hlook, decFuel_eq_decodedOf _ _ (hlen ▸ h), decFuel_eq_decodedOf _ _ hlen.le]

/-- `dec` with fuel for one step and what is left after it. -/
theorem dec_eq_decFuel (y : List Byte) (p : Nat) : Codec.dec y p = Codec.decFuel (y.length - (p + 1) + 1) y p :=
  (decFuel_eq_dec y (by omega)).symm

section
variable {y : List Byte} {p k : Nat} {b : Byte} (hy : y[p]? = some b)
include hy

theorem dec_nop (hb : toSigned8 b = -128) : Codec.dec y p = Codec.dec y (p + 1) := by
  rw [dec_eq_decFuel, decFuel_nop hy hb]
  rfl

theorem dec_lit (hb : toSigned8 b = (k : Int) - 1) (hk : 1 ≤ k) :
    Codec.dec y p = if y.length < p + 1 + k then .corruptData
      else Codec.prepend ((y.drop (p + 1)).take k) (Codec.dec y (p + 1 + k)) := by
  rw [dec_eq_decFuel, decFuel_lit hy hb hk, decFuel_eq_dec y (by omega)]

theorem dec_rep {v : Byte} (hv : y[p + 1]? = some v) (hb : toSigned8 b = -((k : Int) - 1)) (hk : 2 ≤ k ∧ k ≤ 128) :
    Codec.dec y p = Codec.prepend (List.replicate k v) (Codec.dec y (p + 2)) := by
  rw [dec_eq_decFuel, decFuel_rep hy hv hb hk, decFuel_eq_dec y (by omega)]

theorem dec_rep_truncated (hv : y[p + 1]? = none) (hb : toSigned8 b = -((k : Int) - 1)) (hk : 2 ≤ k ∧ k ≤ 128) :
    Codec.dec y p = .corruptData := by
  rw [dec_eq_decFuel, decFuel_rep_truncated hy hv hb hk]

end

/-! ### ENC_STEP -/

/-- What ENC_STEP leaves, against what `enc` has still to emit: it completes at the end of the input, it emits the next
bytes, or the next bytes do not fit. -/
inductive EncodeStep (s : State) : State → Prop
  | completes (hi : s.i = s.n.toNat) : EncodeStep s s.complete
  | emits (bs l : List Byte) (i : Nat) (hf : s.fits bs)
      (he : Codec.enc s.inputSeq s.i s.lit = bs ++ Codec.enc s.inputSeq i l) :
      EncodeStep s { s.emitted bs with i := i, lit := l }
  | overflows (bs rest l : List Byte) (ho : s.platform.outCap < s.o + bs.length)
      (he : Codec.enc s.inputSeq s.i s.lit = bs ++ rest) : EncodeStep s { s.overflowed with lit := l }

/-- Bytes that do not fit are more than OBUF has left. -/
theorem State.lt_of_not_fits {s : State} {bs : List Byte} (h : ¬ s.fits bs) :
    s.platform.outCap < s.o + bs.length := Nat.not_le.mp fun hle => h (.inr hle)

/-- Emitting the next bytes of `enc` and emptying the literal buffer, or overflowing with them. -/
theorem EncodeStep.of_emission {s : State} {bs l : List Byte} {i : Nat}
    (he : Codec.enc s.inputSeq s.i s.lit = bs ++ Codec.enc s.inputSeq i []) {t : State}
    (ht : endStep (if s.fits bs then .ok { s.emitted bs with i := i, lit := [] }
      else .error { s.overflowed with lit := l }) = .next t) : EncodeStep s t := by
  split at ht
  · next hf => cases ht; exact .emits bs [] i hf he
  · next hf => cases ht; exact .overflows bs _ l (State.lt_of_not_fits hf) he

theorem execEncode_encodeStep {s t : State} (hf : s.inputFits) (hi : s.i ≤ s.n.toNat) (ht : execEncode s = .next t) :
    EncodeStep s t := by
  rcases Nat.eq_or_lt_of_le hi with hend | hlt
  · rw [execEncode, if_pos hend] at ht
    cases ht
    exact .completes hend
  have hv := State.inputSeq_inside hlt
  rcases Nat.eq_or_lt_of_le (Nat.succ_le_of_lt hlt) with hlast | hmore
  · rw [execEncode_last hf hlast, State.encodeLast_eq] at ht
    rw [← State.inputSeq_length] at hlast
    refine EncodeStep.of_emission ?_ ht
    rw [Codec.enc_last hlast hv, Codec.enc_end hlast.ge, List.append_nil]
  have hw := State.inputSeq_inside hmore
  by_cases hne : s.ibufByte (s.i + 1) ≠ s.ibufByte s.i
  · rw [execEncode_different hf hmore hne, State.encodeDifferent_eq] at ht
    split at ht
    · next hl => exact EncodeStep.of_emission (Codec.enc_flush hv hw hne (by simpa using hl)) ht
    · next hl =>
      cases ht
      exact .emits [] _ _ (.inl rfl) (Codec.enc_keep hv hw hne (by simpa using hl))
  · have heq := not_not.mp hne
    rw [heq] at hw
    rw [execEncode_equal hf hmore heq] at ht
    have hrun := (State.runLength_at_run hf hmore heq).1
    have he := Codec.enc_run hv hw s.lit
    rw [← hrun] at he
    rcases s.encodeEqual_cases (s.ibufByte s.i) with ⟨hfits, hs⟩ | ⟨hover, l, hs⟩
    · rw [hs] at ht
      cases ht
      exact .emits _ _ _ (.inr hfits) he
    · rw [hs] at ht
      cases ht
      exact .overflows _ _ l hover he

/-! ### DEC_STEP -/

/-- What DEC_STEP leaves, against what `dec` has still to give. -/
inductive DecodeStep (s : State) : State → Prop
  | completes (hp : s.p = s.n.toNat) : DecodeStep s s.complete
  | emits (bs : List Byte) (p : Nat) (hf : s.fits bs)
      (he : Codec.dec s.inputSeq s.p = Codec.prepend bs (Codec.dec s.inputSeq p)) :
      DecodeStep s { s.emitted bs with p := p }
  | overflows (bs : List Byte) (p : Nat) (ho : s.platform.outCap < s.o + bs.length)
      (he : Codec.dec s.inputSeq s.p = Codec.prepend bs (Codec.dec s.inputSeq p)) : DecodeStep s s.overflowed
  | truncated (he : Codec.dec s.inputSeq s.p = .corruptData) : DecodeStep s (s.lost 0x12#32)

/-- The data of a chunk, emitted or overflowing. -/
theorem DecodeStep.of_emission {s : State} {bs : List Byte} {p : Nat}
    (he : Codec.dec s.inputSeq s.p = Codec.prepend bs (Codec.dec s.inputSeq p)) :
    DecodeStep s (if s.fits bs then { s.emitted bs with p := p } else s.overflowed) := by
  split
  · next hf => exact .emits bs p hf he
  · next hf => exact .overflows bs p (State.lt_of_not_fits hf) he

/-- A slice of the input sequence is what the block reads there. -/
theorem State.inputSeq_slice {s : State} {a k : Nat} (hk : a + k ≤ s.n.toNat) :
    (s.inputSeq.drop a).take k = (List.range' a k).map s.ibufByte := by
  refine List.ext_getElem? fun j => ?_
  by_cases hj : j < k
  · rw [List.getElem?_take_of_lt hj, List.getElem?_drop, State.inputSeq_inside (by omega)]
    simp [hj]
  · simp [hj]

theorem execDecode_decodeStep {s t : State} (hf : s.inputFits) (hp : s.p ≤ s.n.toNat) (ht : execDecode s = .next t) :
    DecodeStep s t := by
  rw [execDecode_eq] at ht
  rcases Nat.eq_or_lt_of_le hp with hend | hlt
  · rw [if_pos hend] at ht
    cases ht
    exact .completes hend
  have hy := State.inputSeq_inside hlt
  rw [if_neg hlt.ne, State.input?_inside hlt hf] at ht
  simp only at ht
  rcases headByte_cases (s.ibufByte s.p) with hnop | ⟨k, hb, hk, -⟩ | ⟨k, hb, hk⟩
  · have hb : toSigned8 (s.ibufByte s.p) = -128 := by rw [hnop]; rfl
    rw [decodeControl_of_nop hb] at ht
    cases ht
    exact .emits [] _ (.inl rfl) (by rw [dec_nop hy hb, prepend_nil])
  · have hcount : litCount ((k : Int) - 1) = k := by simp [litCount]
    have hdec := dec_lit hy hb hk
    rw [State.inputSeq_length] at hdec
    rw [decodeControl_of_lit (by omega), hb, exec, execLit_eq, hcount] at ht
    split at ht
    · next hshort => cases ht; exact .truncated (by rw [hdec, if_pos hshort])
    · next hlong =>
      have hin : s.p + 1 + k ≤ s.n.toNat := Nat.not_lt.mp hlong
      rw [if_neg hlong, State.inputSeq_slice hin] at hdec
      rw [State.inputRange?_inside hin hf] at ht
      cases ht
      exact .of_emission hdec
  · have hcount : repCount (-((k : Int) - 1)) = k := by simp [repCount]
    rw [decodeControl_of_rep (by omega) (by omega), hb, exec, execRep_eq, hcount] at ht
    split at ht
    · next hshort =>
      have hnone : s.inputSeq[s.p + 1]? = none := by rw [State.inputSeq_get?, if_neg (by omega)]
      cases ht
      exact .truncated (dec_rep_truncated hy hnone hb hk)
    · next hlong =>
      have hin : s.p + 1 < s.n.toNat := by omega
      rw [State.input?_inside hin hf] at ht
      cases ht
      exact .of_emission (dec_rep hy (State.inputSeq_inside hin) hb hk)

/-! ### On course -/

/-- Bytes written at the end of an output sequence are appended to it. -/
theorem WritesAt.outputSeq {s t : State} {a : Nat} {bs : List Byte} (h : WritesAt s t a bs) :
    t.outputSeq (a + bs.length) = s.outputSeq a ++ bs := by
  obtain ⟨hwritten, hkept⟩ := h
  refine List.ext_getElem? fun k => ?_
  rcases Nat.lt_or_ge k a with hk | hk
  · rw [List.getElem?_append_left (by simpa [State.outputSeq] using hk)]
    simp [State.outputSeq, hk, show k < a + bs.length by omega, hkept k (.inl hk)]
  · obtain ⟨j, rfl⟩ := Nat.exists_eq_add_of_le hk
    have hskip : (s.outputSeq a ++ bs)[a + j]? = bs[j]? := by
      rw [List.getElem?_append_right (by simp [State.outputSeq])]
      simp [State.outputSeq]
    rw [hskip]
    cases hj : bs[j]? with
    | none =>
      have := List.getElem?_eq_none_iff.mp hj
      simp [State.outputSeq, this]
    | some b =>
      obtain ⟨hlt, -⟩ := List.getElem?_eq_some_iff.mp hj
      simp [State.outputSeq, hlt, hwritten j b hj]

theorem State.outputSeq_emitted (s : State) (bs : List Byte) :
    (s.emitted bs).outputSeq (s.emitted bs).o = s.outputSeq s.o ++ bs := (s.emitted_writesAt bs).outputSeq

theorem EncoderOnCourse.emits {s : State} (h : EncoderOnCourse s) {bs l : List Byte} {i : Nat}
    (he : Codec.enc s.inputSeq s.i s.lit = bs ++ Codec.enc s.inputSeq i l) :
    EncoderOnCourse { s.emitted bs with i := i, lit := l } := by
  have hout := s.outputSeq_emitted bs
  unfold EncoderOnCourse at h
  rw [he, ← List.append_assoc, ← hout] at h
  exact h

theorem prepend_prepend (a b : List Byte) (r : Codec.Decoded) :
    Codec.prepend a (Codec.prepend b r) = Codec.prepend (a ++ b) r := by
  cases r with
  | ok z => simp [Codec.prepend]
  | corruptData => rfl

theorem DecoderOnCourse.emits {s : State} (h : DecoderOnCourse s) {bs : List Byte} {p : Nat}
    (he : Codec.dec s.inputSeq s.p = Codec.prepend bs (Codec.dec s.inputSeq p)) :
    DecoderOnCourse { s.emitted bs with p := p } := by
  have hout := s.outputSeq_emitted bs
  unfold DecoderOnCourse at h
  rw [he, prepend_prepend, ← hout] at h
  exact h

theorem EncodeStep.onCourse {s t : State} (h : EncodeStep s t) (hb : t.busy = true) (hc : EncoderOnCourse s) :
    EncoderOnCourse t := by
  cases h with
  | completes => exact nomatch s.complete_busy.symm.trans hb
  | emits _ _ _ _ he => exact hc.emits he
  | overflows => exact nomatch (s.lost_busy .outOverflow).symm.trans hb

theorem DecodeStep.onCourse {s t : State} (h : DecodeStep s t) (hb : t.busy = true) (hc : DecoderOnCourse s) :
    DecoderOnCourse t := by
  cases h with
  | completes => exact nomatch s.complete_busy.symm.trans hb
  | emits _ _ _ he => exact hc.emits he
  | overflows => exact nomatch (s.lost_busy .outOverflow).symm.trans hb
  | truncated => exact nomatch (s.lost_busy .corruptData).symm.trans hb

/-- A step from a running command that leaves one running is the block's turn, or changes only the host's fields and the
draws. -/
theorem step_busy_cases {s t : State} (hs : s.busy = true) (ht : step s = .next t) (hb : t.busy = true) :
    (∃ rest, perform (blockAction { s with schedule := rest }) = .next t) ∨
    ∃ events received draws, t = { s with schedule := events, received := received, draws := draws } := by
  rcases step_cases ht with ⟨rest, _, ht⟩ | ⟨op, rest, _, ht⟩ | ⟨rest, _, rfl⟩ | ⟨rest, _, rfl⟩
  · exact .inl ⟨rest, ht⟩
  · exact .inr ⟨_, _, _, hostAccess_busy (s := { s with schedule := rest }) hs ht⟩
  · exact .inr ⟨_, _, _, pollStatus_frame _⟩
  · simp [State.busy, statusBUSY] at hb

section
variable {s t : State} {rest : List Event} (h : Inv s)
  (ht : perform (blockAction { s with schedule := rest }) = .next t)
include h ht

theorem Inv.turn_encodeStep (hr : s.runs codeEncode) : EncodeStep { s with schedule := rest } t := by
  obtain ⟨hst, hp, hop⟩ := hr
  have hs : s.busy = true := State.busy_of_accepted hst
  have hrun := (h.scheduled rest).running hs
  rw [perform_encode (s := { s with schedule := rest }) hs hp hop] at ht
  exact execEncode_encodeStep ((hrun.checked hp).2 (isCodecCommand_iff.mpr (.inl hop))) hrun.cursors.1 ht

theorem Inv.turn_decodeStep (hr : s.runs codeDecode) : DecodeStep { s with schedule := rest } t := by
  obtain ⟨hst, hp, hop⟩ := hr
  have hs : s.busy = true := State.busy_of_accepted hst
  have hrun := (h.scheduled rest).running hs
  rw [perform_decode (s := { s with schedule := rest }) hs hp hop] at ht
  exact execDecode_decodeStep ((hrun.checked hp).2 (isCodecCommand_iff.mpr (.inr hop))) hrun.cursors.2.1 ht

end

/-- Settles O56: the host's steps touch nothing of the course, and the block's turn emits the next bytes of it. -/
theorem codecStepsStayOnCourse : Obligations.CodecStepsStayOnCourse := by
  unfold Obligations.CodecStepsStayOnCourse
  intro s t h ht hb
  refine ⟨fun hr hc => ?_, fun hr hc => ?_⟩
  · rcases step_busy_cases (State.busy_of_accepted hr.1) ht hb with ⟨rest, ht⟩ | ⟨_, _, _, rfl⟩
    · exact (h.turn_encodeStep ht hr).onCourse hb hc
    · exact hc
  · rcases step_busy_cases (State.busy_of_accepted hr.1) ht hb with ⟨rest, ht⟩ | ⟨_, _, _, rfl⟩
    · exact (h.turn_decodeStep ht hr).onCourse hb hc
    · exact hc

end Sys2Proof.Machine
end

section
/-! The command ENCODE from its acceptance to its end (spec/41 R130, R151; spec/40 R122). -/

namespace Sys2Proof.Machine

/-! ### What holds along a codec command -/

/-- What holds along a codec command holds at its end: `P` while it runs on, `Q` when it has ended. -/
theorem CodecRuns.of_endsIn {w : Word} {P Q : State → Prop}
    (hstep : ∀ s t, CodecRuns w s → P s → Machine.step s = .next t →
      (t.busy = true → P t) ∧ (t.busy = false → Q t))
    {s t : State} {m : Nat} (h : CodecRuns w s) (hp : P s) (he : EndsIn s m t) : Q t := by
  induction he with
  | ended ht => exact nomatch ht.symm.trans (State.busy_of_accepted h.runs.1)
  | @more s u t m _ hu he ih =>
    obtain ⟨hrun, hend⟩ := hstep s u h hp hu
    obtain ⟨u', hu', hgo⟩ := h.step
    cases hu'.symm.trans hu
    cases hb : u.busy with
    | true => exact ih (hgo.resolve_left (by simp [hb])).1 (hrun hb)
    | false =>
      cases he with
      | ended => exact hend hb
      | more hbusy => exact nomatch hb.symm.trans hbusy

/-- From `b` on, a running codec command has kept its inputs, the platform, CONV_OUT and OBUF from the count on, which is
within OUT_CAP (spec/40 R115, spec/10 R30). -/
structure CodecKept (b s : State) : Prop where
  inputs : InputsKept b s
  platform : s.platform = b.platform
  convOut : s.convOut = b.convOut
  beyond : ∀ k, s.o ≤ k → s.obufByte k = b.obufByte k
  count : s.o ≤ b.platform.outCap

theorem InputsKept.trans {b s t : State} (h : InputsKept b s) (h' : InputsKept s t) : InputsKept b t :=
  ⟨h'.op.trans h.op, h'.n.trans h.n, h'.inLen.trans h.inLen, h'.convIn.trans h.convIn,
    fun k => (h'.ibuf k).trans (h.ibuf k)⟩

theorem InputsKept.inputSeq {s t : State} (h : InputsKept s t) : t.inputSeq = s.inputSeq := by
  rw [State.inputSeq, State.inputSeq, h.n, funext h.ibuf]

theorem CodecKept.checked (s : State) (w : Word) : CodecKept (s.checked w) (s.checked w) :=
  ⟨⟨rfl, rfl, rfl, rfl, fun _ => rfl⟩, rfl, rfl, fun _ _ => rfl, Nat.zero_le _⟩

theorem CodecKept.emits {b s : State} (h : CodecKept b s) {bs : List Byte} (hf : s.fits bs) (i p : Nat)
    (l : List Byte) : CodecKept b { s.emitted bs with i := i, lit := l, p := p } where
  inputs := h.inputs.trans ⟨rfl, rfl, rfl, rfl, fun _ => rfl⟩
  platform := h.platform
  convOut := h.convOut
  beyond k hk := ((s.emitted_writesAt bs).2 k (.inr hk)).trans (h.beyond k (Nat.le_of_add_right_le hk))
  count := h.platform ▸ hf.count_le (h.platform ▸ h.count)

/-! ### The end of ENCODE -/

/-- What the command ENCODE leaves in `t`, begun on the inputs of `b` (spec/41 R130, R151). -/
structure EncodeEnds (b t : State) : Prop where
  inputs : InputsKept b t
  convOut : t.convOut = b.convOut
  fits : (Codec.encode b.inputSeq).length ≤ b.platform.outCap →
    t.status = statusCompleted ∧ t.outLen.toNat = (Codec.encode b.inputSeq).length ∧
    WritesAt b t 0 (Codec.encode b.inputSeq)
  overflows : b.platform.outCap < (Codec.encode b.inputSeq).length → t.status = 0x42#32 ∧ t.outLen = 0

/-- A whole output sequence, with every byte beyond it kept. -/
theorem writesAt_of_outputSeq {s t : State} {bs : List Byte} (h : t.outputSeq bs.length = bs)
    (hkept : ∀ k, bs.length ≤ k → t.obufByte k = s.obufByte k) : WritesAt s t 0 bs := by
  refine ⟨fun j v hj => ?_, fun k hk => hkept k (by omega)⟩
  obtain ⟨hlt, -⟩ := List.getElem?_eq_some_iff.mp hj
  rw [← h] at hj
  simpa [State.outputSeq, hlt] using hj

section
variable {b s : State} (h : CodecKept b s) (hc : EncoderOnCourse s)
include h hc

/-- With the input consumed, all of `encode` has been emitted. -/
theorem CodecKept.encode_completes (hop : s.op = codeEncode) (hcap : b.platform.outCap < 2 ^ 32)
    (hi : s.i = s.n.toNat) : EncodeEnds b s.complete := by
  have hout : s.outputSeq s.o = Codec.encode b.inputSeq := by
    rw [EncoderOnCourse, Codec.enc_end (by rw [State.inputSeq_length, hi]), List.append_nil, h.inputs.inputSeq] at hc
    exact hc
  have hlen : s.o = (Codec.encode b.inputSeq).length := by rw [← hout]; simp [State.outputSeq]
  have hcount := h.count
  refine ⟨h.inputs.trans ⟨rfl, rfl, rfl, rfl, fun _ => rfl⟩, h.convOut, fun _ => ⟨rfl, ?_, ?_⟩, fun hover => ?_⟩
  · rw [State.complete_outLen, if_pos (isCodecCommand_iff.mpr (.inl hop)), BitVec.toNat_ofNat,
      Nat.mod_eq_of_lt (by omega), hlen]
  · rw [hlen] at hout
    exact writesAt_of_outputSeq hout fun k hk => h.beyond k (hlen ▸ hk)
  · omega

/-- Bytes of `encode` that do not fit OBUF make it longer than OUT_CAP. -/
theorem CodecKept.encode_overflows {bs rest : List Byte} (ho : s.platform.outCap < s.o + bs.length)
    (he : Codec.enc s.inputSeq s.i s.lit = bs ++ rest) (l : List Byte) :
    EncodeEnds b { s.overflowed with lit := l } := by
  have hlen : b.platform.outCap < (Codec.encode b.inputSeq).length := by
    rw [EncoderOnCourse, he, h.inputs.inputSeq] at hc
    rw [← hc, ← h.platform]
    simp only [List.length_append, State.outputSeq, List.length_map, List.length_range]
    omega
  exact ⟨h.inputs.trans ⟨rfl, rfl, rfl, rfl, fun _ => rfl⟩, h.convOut, fun hfits => by omega,
    fun _ => ⟨rfl, rfl⟩⟩

/-- A step of ENCODE goes on with what holds along the command, or ends it as stated. -/
theorem CodecKept.encode_step {t : State} (hcap : b.platform.outCap < 2 ^ 32) (hr : CodecRuns codeEncode s)
    (ht : Machine.step s = .next t) :
    (t.busy = true → CodecKept b t ∧ EncoderOnCourse t) ∧ (t.busy = false → EncodeEnds b t) := by
  have hs : s.busy = true := State.busy_of_accepted hr.runs.1
  have hstep : execEncode s = .next t := (step_codec hr.codec hr.runs hr.alone).symm.trans ht
  cases execEncode_encodeStep hr.inputFits hr.cursor hstep with
  | completes hi =>
    exact ⟨fun hb => (nomatch s.complete_busy.symm.trans hb), fun _ => h.encode_completes hc hr.runs.2.2 hcap hi⟩
  | emits bs l i hf he => exact ⟨fun _ => ⟨h.emits hf i s.p l, hc.emits he⟩, fun hb => (nomatch hs.symm.trans hb)⟩
  | overflows bs rest l ho he =>
    exact ⟨fun hb => (nomatch (s.lost_busy .outOverflow).symm.trans hb), fun _ => h.encode_overflows hc ho he l⟩

end

/-! ### The whole command -/

/-- Past CHECK nothing has been emitted, and all of `encode` is still to be. -/
theorem State.checked_onCourse (s : State) (w : Word) : EncoderOnCourse (s.checked w) := rfl

/-- ENCODE on an input that fits IBUF ends as stated, within one step more than it has bytes. -/
theorem State.checked_encodes {s : State} (hP : s.platform.wf) (hf : s.inLen.toNat ≤ s.platform.inCap) :
    ∃ m t, m ≤ s.inLen.toNat + 1 ∧ EndsIn (s.checked codeEncode) m t ∧ EncodeEnds (s.checked codeEncode) t := by
  have hcap : s.platform.outCap < 2 ^ 32 := hP.2.2.2.1
  have hruns : CodecRuns codeEncode (s.checked codeEncode) := State.begun_codecRuns rfl hf
  obtain ⟨m, t, hm, he⟩ := hruns.ends
  exact ⟨m, t, hm, he, hruns.of_endsIn (P := fun u => CodecKept (s.checked codeEncode) u ∧ EncoderOnCourse u)
    (fun u v hr ⟨hk, hc⟩ hv => hk.encode_step hc hcap hr hv) ⟨.checked s codeEncode, s.checked_onCourse codeEncode⟩ he⟩

/-- Settles O57: CHECK refuses an input longer than IBUF; any other command stays on course, step by step, to its end. -/
theorem encodeCommandComputesEncode : Obligations.EncodeCommandComputesEncode := by
  unfold Obligations.EncodeCommandComputesEncode
  intro s hP hb hc
  have haccept := step_commanded hb hc
  by_cases hf : s.inLen.toNat ≤ s.platform.inCap
  · obtain ⟨m, t, hm, he, hend⟩ := State.checked_encodes hP hf
    have hcheck : checkStep (s.begun codeEncode) = s.checked codeEncode := checkStep_codec rfl hf
    have hbegun : EndsIn (s.begun codeEncode) (m + 1) t :=
      .more (s.begun_busy codeEncode) (hcheck ▸ step_begun s codeEncode) he
    exact ⟨m + 2, t, hbegun.endsAt haccept (s.begun_busy codeEncode), by omega, hend.inputs.inLen, hend.inputs.convIn,
      hend.convOut, hend.inputs.ibuf, fun _ => hend.fits, fun _ => hend.overflows, fun hlong => by omega⟩
  · have hrefused : checkStep (s.begun codeEncode) = (s.begun codeEncode).raiseErr .lenRange :=
      checkStep_lenRange rfl (Nat.not_le.mp hf)
    exact ⟨2, _, (State.begun_refused hrefused).endsAt haccept (s.begun_busy codeEncode), by omega, rfl, rfl, rfl,
      fun _ => rfl, fun h => absurd h hf, fun h => absurd h hf, fun _ => ⟨rfl, rfl, fun _ => rfl⟩⟩

end Sys2Proof.Machine
end

section
/-! The recursion of `dec`, and that `decode` reads complete chunks one by one (spec/42 R180, R183). -/

namespace Sys2Proof.Machine

/-- At the end of the sequence `dec` has nothing to give. -/
theorem dec_end {y : List Byte} {p : Nat} (h : y.length ≤ p) : Codec.dec y p = .ok [] := by
  rw [Codec.dec, Nat.sub_eq_zero_of_le h]
  rfl

/-- Settles O9: at the end of the sequence, and for each class of the control byte at the index. -/
theorem decoderFunctionRecursion : Obligations.DecoderFunctionRecursion := by
  unfold Obligations.DecoderFunctionRecursion
  intro y p
  refine ⟨fun hp => dec_end hp.ge, fun b hy hb => dec_nop hy hb, fun b k hy hlit hk => ?_,
    fun b k hy hneg hne hk => ?_⟩
  · have hdec := dec_lit (k := k) hy (by omega) (by omega)
    exact ⟨fun hshort => by rw [hdec, if_pos hshort], fun hlong => by rw [hdec, if_neg (Nat.not_lt.mpr hlong)]⟩
  · have hl := (toSigned8_bounds b).1
    have hb : toSigned8 b = -((k : Int) - 1) := by omega
    have hrange : 2 ≤ k ∧ k ≤ 128 := by omega
    exact ⟨fun hshort => dec_rep_truncated hy (List.getElem?_eq_none (by omega)) hb hrange,
      fun v hv => dec_rep hy hv hb hrange⟩

/-- A complete chunk at the head of a sequence gives its bytes, whatever follows it. -/
theorem decode_chunk {c : Chunk} (h : c.wf) (y : List Byte) :
    Codec.decode (c.bytes ++ y) = Codec.prepend c.output (Codec.decode y) := by
  rw [decode_eq_decodedOf, decode_eq_decodedOf, parse_chunk h, ← prepend_decodedOf]

theorem decode_streamBytes_append {cs : List Chunk} (h : ∀ c ∈ cs, c.wf) (y : List Byte) :
    Codec.decode (streamBytes cs ++ y) = Codec.prepend (streamOutput cs) (Codec.decode y) := by
  induction cs with
  | nil => exact (prepend_nil _).symm
  | cons c cs ih =>
    rw [List.forall_mem_cons] at h
    rw [streamBytes_cons, List.append_assoc, decode_chunk h.1, ih h.2, prepend_prepend, streamOutput_cons]

/-- Settles O15: a NOP is a complete chunk that stands for no bytes. -/
theorem nopsBetweenChunksAreTransparent : Obligations.NopsBetweenChunksAreTransparent := by
  unfold Obligations.NopsBetweenChunksAreTransparent
  intro cs y h
  have hnop : Codec.decode (0x80#8 :: y) = Codec.decode y := (decode_chunk (c := .nop) rfl y).trans (prepend_nil _)
  rw [decode_streamBytes_append h, decode_streamBytes_append h, hnop]

end Sys2Proof.Machine
end

section
/-! The stream instructions and DEC_STEP (spec/42 R172 to R178). -/

namespace Sys2Proof.Machine

/-! ### What a complete chunk leaves -/

/-- `s` after a complete chunk: its bytes emitted and the cursor at `p`, or OUT_OVERFLOW. -/
def State.chunkRead (s : State) (bs : List Byte) (p : Nat) : State :=
  if s.fits bs then { s.emitted bs with p := p } else s.overflowed

theorem State.chunkRead_fits {s : State} {bs : List Byte} (h : s.fits bs) (p : Nat) :
    s.chunkRead bs p = { s.emitted bs with p := p } := if_pos h

theorem State.chunkRead_overflows {s : State} {bs : List Byte} (h : ¬ s.fits bs) (p : Nat) :
    s.chunkRead bs p = s.overflowed := if_neg h

/-- A chunk whose bytes fit writes them at the count, and moves the count and the cursor. -/
theorem State.chunkRead_spec {s : State} {bs : List Byte} {k : Nat} (hk : bs.length = k)
    (ho : s.o + k ≤ s.platform.outCap) (p : Nat) :
    s.chunkRead bs p = { s with p := p, o := s.o + k, obuf := (s.chunkRead bs p).obuf } ∧
    WritesAt s (s.chunkRead bs p) s.o bs := by
  subst hk
  rw [State.chunkRead_fits (.inr ho)]
  exact ⟨rfl, s.emitted_writesAt bs⟩

/-! ### LIT and REP by their counts -/

section
variable {s : State} {c : Int} {k : Nat}

theorem litCount_eq (hk : (k : Int) = c + 1) : litCount c = k := by rw [litCount, ← hk, Int.toNat_natCast]

theorem repCount_eq (hk : (k : Int) = -c + 1) : repCount c = k := by rw [repCount, ← hk, Int.toNat_natCast]

theorem execLit_complete (hk : (k : Int) = c + 1) (hf : s.inputFits) (hin : s.p + 1 + k ≤ s.n.toNat) :
    execLit c s = .next (s.chunkRead ((List.range' (s.p + 1) k).map s.ibufByte) (s.p + 1 + k)) := by
  rw [execLit_eq, litCount_eq hk, if_neg (Nat.not_lt.mpr hin), State.inputRange?_inside hin hf]
  rfl

theorem execLit_truncated (hk : (k : Int) = c + 1) (hshort : s.n.toNat < s.p + 1 + k) :
    execLit c s = .next (s.lost 0x12#32) := by
  rw [execLit_eq, litCount_eq hk, if_pos hshort]

theorem execRep_complete (hk : (k : Int) = -c + 1) (hf : s.inputFits) (hin : s.p + 2 ≤ s.n.toNat) :
    execRep c s = .next (s.chunkRead (List.replicate k (s.ibufByte (s.p + 1))) (s.p + 2)) := by
  rw [execRep_eq, repCount_eq hk, if_neg (Nat.not_lt.mpr hin), State.input?_inside hin hf]
  rfl

theorem execRep_truncated (hshort : s.n.toNat < s.p + 2) : execRep c s = .next (s.lost 0x12#32) := by
  rw [execRep_eq, if_pos hshort]

end

/-- Settles O33. -/
theorem nopAdvancesTheCursor : Obligations.NopAdvancesTheCursor := by
  unfold Obligations.NopAdvancesTheCursor
  intro s
  rfl

/-- Settles O34: the data of a complete LIT chunk is the next `k` input bytes, and they fit. -/
theorem litCopiesItsData : Obligations.LitCopiesItsData := by
  unfold Obligations.LitCopiesItsData
  intro s c k _ hk hf hin ho
  have hdata : (List.range' (s.p + 1) k).map s.ibufByte = (List.range k).map fun j => s.ibufByte (s.p + 1 + j) := by
    rw [List.range'_eq_map_range, List.map_map]
    rfl
  exact ⟨_, execLit_complete hk hf hin, hdata ▸ State.chunkRead_spec (by simp) ho _⟩

/-- Settles O35: a complete REP chunk's copies fit. -/
theorem repRepeatsItsValue : Obligations.RepRepeatsItsValue := by
  unfold Obligations.RepRepeatsItsValue
  intro s c k _ hk hf hin ho
  exact ⟨_, execRep_complete hk hf hin, State.chunkRead_spec List.length_replicate ho _⟩

/-- Settles O36: the truncation checks come first. -/
theorem truncatedChunksRaiseCorruptData : Obligations.TruncatedChunksRaiseCorruptData := by
  unfold Obligations.TruncatedChunksRaiseCorruptData
  exact fun s => ⟨fun c k _ hk hshort => execLit_truncated hk hshort, fun c _ hshort => execRep_truncated hshort⟩

/-! ### DEC_STEP -/

/-- With input left, DECODE executes the instruction of the control byte at its cursor (spec/42 R173). -/
theorem execDecode_stream {s : State} (hf : s.inputFits) (hp : s.p < s.n.toNat) :
    exec .decode s = exec (decodeControl (s.ibufByte s.p)) s := by
  rw [exec, execDecode_eq, if_neg hp.ne, State.input?_inside hp hf]

/-- Settles O38: by the class of the control byte, through its signed value. -/
theorem decodeDispatchesOnTheControlByte : Obligations.DecodeDispatchesOnTheControlByte := by
  unfold Obligations.DecodeDispatchesOnTheControlByte
  intro s hf hp
  rw [execDecode_stream hf hp]
  refine ⟨fun hb => ?_, fun hb => ?_, fun hb => ?_⟩
  · rw [hb]
    rfl
  · have hc : toSigned8 (s.ibufByte s.p) = (s.ibufByte s.p).toNat := if_pos hb
    rw [decodeControl_of_lit (by omega), hc]
  · have hlt := (s.ibufByte s.p).isLt
    have hc : toSigned8 (s.ibufByte s.p) = (s.ibufByte s.p).toNat - 256 := if_neg (by omega)
    rw [decodeControl_of_rep (by omega) (by omega), hc]

/-- What `complete()` leaves of a codec command (spec/40 R120). -/
theorem State.complete_codec {s : State} (h : isCodecCommand s.op = true) :
    s.complete = { s with outLen := BitVec.ofNat 32 s.o, status := 0x00000002#32 } := by
  rw [State.complete, if_pos h]
  rfl

/-- Settles O39: at the end of the input both units complete. -/
theorem codecCommandsCompleteWhenConsumed : Obligations.CodecCommandsCompleteWhenConsumed := by
  unfold Obligations.CodecCommandsCompleteWhenConsumed
  refine fun s => ⟨fun ⟨_, _, hop⟩ hp => ?_, fun ⟨_, _, hop⟩ hi => ?_⟩
  · rw [exec, execDecode, if_pos hp, State.complete_codec (isCodecCommand_iff.mpr (.inr hop))]
  · rw [exec, execEncode, if_pos hi, State.complete_codec (isCodecCommand_iff.mpr (.inl hop))]

end Sys2Proof.Machine
end

section
/-! The command DECODE from its acceptance to its end (spec/42 R170, R182; spec/40 R122): chunk by chunk, as the parse
reads its input. -/

namespace Sys2Proof.Machine

/-! ### DEC_STEP on the chunk at the cursor -/

section
variable {s : State} (hf : s.inputFits) (hp : s.p ≤ s.n.toNat)
include hf hp

/-- At a complete chunk the step emits what it stands for and passes it. -/
theorem execDecode_chunk {c : Chunk} {rest : List Byte} (hc : c.wf) (hy : s.inputSeq.drop s.p = c.bytes ++ rest) :
    execDecode s = .next (s.chunkRead c.output (s.p + c.bytes.length)) := by
  have hlen : s.p + (c.bytes.length + rest.length) = s.n.toNat := by
    have hlen := congrArg List.length hy
    rw [List.length_drop, State.inputSeq_length, List.length_append] at hlen
    omega
  have hpos := c.bytes_length_pos
  have hdata : (List.range' s.p c.bytes.length).map s.ibufByte = c.bytes := by
    rw [← State.inputSeq_slice (by omega), hy, List.take_left]
  refine (execDecode_stream hf (by omega)).trans ?_
  cases c with
  | lit data =>
    rw [Chunk.bytes_lit_length] at hdata hlen
    obtain ⟨hhead, hrest⟩ := List.cons.inj hdata
    have hb := Chunk.toSigned8_lit hc
    have hk := ((Chunk.wf_lit data).mp hc).1
    rw [hhead, decodeControl_of_lit (by omega), exec, hb,
      execLit_complete (k := data.length) (by omega) hf (by omega), hrest, Nat.add_right_comm]
    rfl
  | rep k v =>
    rw [Chunk.bytes_rep_length] at hdata hlen
    obtain ⟨hhead, hvalue⟩ := List.cons.inj hdata
    have hb := Chunk.toSigned8_rep hc
    have hk := (Chunk.wf_rep k v).mp hc
    rw [hhead, decodeControl_of_rep (by omega) (by omega), exec, hb,
      execRep_complete (k := k) (by omega) hf (by omega), (List.cons.inj hvalue).1]
    rfl
  | nop =>
    rw [(List.cons.inj hdata).1]
    exact congrArg _ (State.chunkRead_fits (.inl rfl) _).symm

/-- At a truncated chunk the step emits nothing. -/
theorem execDecode_truncated {b : Byte} {data : List Byte} (hy : s.inputSeq.drop s.p = b :: data)
    (hshort : data.length + 1 < chunkLength (decodeControl b)) : execDecode s = .next (s.lost 0x12#32) := by
  have hlen := congrArg List.length hy
  rw [List.length_drop, State.inputSeq_length, List.length_cons] at hlen
  have hlt : s.p < s.n.toNat := by omega
  have hb : s.ibufByte s.p = b := by
    rw [State.inputSeq_drop hlt] at hy
    exact (List.cons.inj hy).1
  refine (execDecode_stream hf hlt).trans ?_
  rw [hb]
  rcases headByte_cases b with rfl | ⟨k, hb, hk, -⟩ | ⟨k, hb, hk⟩
  · exact absurd hshort (Nat.not_lt.mpr (Nat.le_add_left 1 data.length))
  · rw [decodeControl_of_lit (by omega), chunkLength] at hshort
    rw [decodeControl_of_lit (by omega)]
    exact execLit_truncated (k := k) (by omega) (by omega)
  · rw [decodeControl_of_rep (by omega) (by omega), chunkLength] at hshort
    rw [decodeControl_of_rep (by omega) (by omega)]
    exact execRep_truncated (by omega)

end

/-! ### The chunks read so far -/

/-- DECODE has read the chunks `cs`: they are the input before the cursor, and what they stand for is the output so
far. -/
structure ChunksRead (s : State) (cs : List Chunk) : Prop where
  wf : ∀ c ∈ cs, c.wf
  input : streamBytes cs ++ s.inputSeq.drop s.p = s.inputSeq
  output : s.outputSeq s.o = streamOutput cs

section
variable {s : State} {cs : List Chunk} (h : ChunksRead s cs)
include h

/-- The parse of the input begins with the chunks read. -/
theorem ChunksRead.parse_eq :
    parse s.inputSeq = (cs ++ (parse (s.inputSeq.drop s.p)).1, (parse (s.inputSeq.drop s.p)).2) :=
  (congrArg parse h.input).symm.trans (parse_streamBytes_append h.wf _)

theorem ChunksRead.length_eq : (streamOutput cs).length = s.o := by
  rw [← h.output]
  simp [State.outputSeq]

theorem ChunksRead.snoc {c : Chunk} {rest : List Byte} (hc : c.wf) (hy : s.inputSeq.drop s.p = c.bytes ++ rest) :
    ChunksRead { s.emitted c.output with p := s.p + c.bytes.length } (cs ++ [c]) where
  wf := by simpa [or_imp, forall_and] using ⟨h.wf, hc⟩
  input := by
    have hrest : s.inputSeq.drop (s.p + c.bytes.length) = rest := by
      rw [← List.drop_drop, hy, List.drop_left]
    have hread : streamBytes (cs ++ [c]) ++ s.inputSeq.drop (s.p + c.bytes.length) = s.inputSeq := by
      rw [hrest, streamBytes_append, List.append_assoc, streamBytes_cons, List.append_assoc]
      exact (congrArg _ hy).symm.trans h.input
    exact hread
  output := by
    rw [streamOutput_append, ← h.output, streamOutput_cons]
    exact (s.outputSeq_emitted c.output).trans (congrArg _ (List.append_nil _).symm)

end

theorem State.checked_chunksRead (s : State) (w : Word) : ChunksRead (s.checked w) [] :=
  ⟨List.forall_mem_nil _, rfl, rfl⟩

/-! ### The end of DECODE -/

/-- What the command DECODE leaves in `t`, begun on the inputs of `b`, of which `r` is the parse (spec/42 R170, R182):
the complete chunks overflow OBUF, or there is no chunk after them, or a truncated one. -/
structure DecodeEnds (b : State) (r : List Chunk × List Byte) (t : State) : Prop where
  inputs : InputsKept b t
  convOut : t.convOut = b.convOut
  overflows : b.platform.outCap < (streamOutput r.1).length → t.status = 0x42#32 ∧ t.outLen = 0
  completes : (streamOutput r.1).length ≤ b.platform.outCap → r.2 = [] →
    t.status = statusCompleted ∧ t.outLen.toNat = (streamOutput r.1).length ∧ WritesAt b t 0 (streamOutput r.1)
  truncated : (streamOutput r.1).length ≤ b.platform.outCap → r.2 ≠ [] → t.status = 0x12#32 ∧ t.outLen = 0

section
variable {b s : State} {cs : List Chunk} (h : CodecKept b s) (hr : ChunksRead s cs)
include h hr

/-- What the chunks read stand for fits OBUF. -/
theorem CodecKept.read_fits : (streamOutput cs).length ≤ b.platform.outCap := hr.length_eq.trans_le h.count

theorem CodecKept.decode_completes (hop : s.op = codeDecode) (hcap : b.platform.outCap < 2 ^ 32) :
    DecodeEnds b (cs, []) s.complete := by
  have hlen := hr.length_eq
  have hfits := h.read_fits hr
  refine ⟨h.inputs.trans ⟨rfl, rfl, rfl, rfl, fun _ => rfl⟩, h.convOut, fun hover => absurd hover hfits.not_gt,
    fun _ _ => ⟨rfl, ?_, ?_⟩, fun _ hne => absurd rfl hne⟩
  · rw [State.complete_outLen, if_pos (isCodecCommand_iff.mpr (.inr hop)), BitVec.toNat_ofNat,
      Nat.mod_eq_of_lt (by omega), hlen]
  · have hout := hr.output
    rw [← hlen] at hout
    exact writesAt_of_outputSeq hout fun k hk => h.beyond k (hlen ▸ hk)

theorem CodecKept.decode_truncated {rest : List Byte} (hne : rest ≠ []) :
    DecodeEnds b (cs, rest) (s.lost 0x12#32) :=
  ⟨h.inputs.trans ⟨rfl, rfl, rfl, rfl, fun _ => rfl⟩, h.convOut, fun hover => absurd hover (h.read_fits hr).not_gt,
    fun _ hnil => absurd hnil hne, fun _ _ => ⟨rfl, rfl⟩⟩

/-- A chunk that does not fit makes what the complete chunks stand for longer than OUT_CAP. -/
theorem CodecKept.decode_overflows {c : Chunk} (hover : ¬ s.fits c.output) (cs' : List Chunk) (rest : List Byte) :
    DecodeEnds b (cs ++ c :: cs', rest) s.overflowed := by
  have hlong : b.platform.outCap < (streamOutput (cs ++ c :: cs')).length := by
    have hlt := State.lt_of_not_fits hover
    rw [h.platform] at hlt
    rw [streamOutput_append, streamOutput_cons, List.length_append, List.length_append, hr.length_eq]
    omega
  exact ⟨h.inputs.trans ⟨rfl, rfl, rfl, rfl, fun _ => rfl⟩, h.convOut, fun _ => ⟨rfl, rfl⟩,
    fun hfits => absurd hlong hfits.not_gt, fun hfits => absurd hlong hfits.not_gt⟩

/-- A step of DECODE reads one more chunk, or ends the command as stated. -/
theorem CodecKept.decode_step {t : State} (hcap : b.platform.outCap < 2 ^ 32) (hruns : CodecRuns codeDecode s)
    (ht : Machine.step s = .next t) :
    (t.busy = true → CodecKept b t ∧ ∃ cs, ChunksRead t cs) ∧
    (t.busy = false → DecodeEnds b (parse b.inputSeq) t) := by
  have hs : s.busy = true := State.busy_of_accepted hruns.runs.1
  have hf := hruns.inputFits
  have hp : s.p ≤ s.n.toNat := hruns.cursor
  have hstep : execDecode s = .next t := (step_codec hruns.codec hruns.runs hruns.alone).symm.trans ht
  rw [← h.inputs.inputSeq, hr.parse_eq]
  rcases takeChunk_cases (s.inputSeq.drop s.p) with ⟨c, rest, hc, hy⟩ | ⟨hnone, hend | ⟨v, data, hy, hshort⟩⟩
  · rw [execDecode_chunk hf hp hc hy] at hstep
    by_cases hfits : s.fits c.output
    · rw [State.chunkRead_fits hfits] at hstep
      cases hstep
      exact ⟨fun _ => ⟨h.emits hfits s.i _ s.lit, _, hr.snoc hc hy⟩, fun hb => (nomatch hs.symm.trans hb)⟩
    · rw [State.chunkRead_overflows hfits] at hstep
      cases hstep
      rw [hy, parse_chunk hc]
      exact ⟨fun hb => (nomatch (s.lost_busy .outOverflow).symm.trans hb),
        fun _ => h.decode_overflows hr hfits _ _⟩
  · have hconsumed : s.p = s.n.toNat := by
      rw [List.drop_eq_nil_iff, State.inputSeq_length] at hend
      omega
    rw [execDecode, if_pos hconsumed] at hstep
    cases hstep
    rw [hend, parse_stop (y := []) rfl, List.append_nil]
    exact ⟨fun hb => (nomatch s.complete_busy.symm.trans hb), fun _ => h.decode_completes hr hruns.runs.2.2 hcap⟩
  · rw [execDecode_truncated hf hp hy hshort] at hstep
    cases hstep
    rw [parse_stop hnone, List.append_nil]
    exact ⟨fun hb => (nomatch (s.lost_busy .corruptData).symm.trans hb),
      fun _ => h.decode_truncated hr (by rw [hy]; exact List.cons_ne_nil v data)⟩

end

/-! ### The whole command -/

/-- A codec command that passes CHECK ends two steps later than its RUN steps do. -/
theorem EndsIn.commanded {s t : State} {w : Word} {m : Nat} (hb : s.busy = false) (hc : s.commanded w)
    (hw : isCodecCommand w = true) (hf : s.inLen.toNat ≤ s.platform.inCap) (he : EndsIn (s.checked w) m t) :
    EndsAt s (m + 2) t := by
  have hcheck : checkStep (s.begun w) = s.checked w := checkStep_codec hw hf
  have hbegun : EndsIn (s.begun w) (m + 1) t := .more (s.begun_busy w) (hcheck ▸ step_begun s w) he
  exact hbegun.endsAt (step_commanded hb hc) (s.begun_busy w)

/-- DECODE of an input that fits IBUF ends as stated, within one step more than it has bytes. -/
theorem State.checked_decodes {s : State} (hP : s.platform.wf) (hf : s.inLen.toNat ≤ s.platform.inCap) :
    ∃ m t, m ≤ s.inLen.toNat + 1 ∧ EndsIn (s.checked codeDecode) m t ∧
      DecodeEnds (s.checked codeDecode) (parse s.rawSeq) t := by
  have hcap : s.platform.outCap < 2 ^ 32 := hP.2.2.2.1
  have hruns : CodecRuns codeDecode (s.checked codeDecode) := State.begun_codecRuns rfl hf
  obtain ⟨m, t, hm, he⟩ := hruns.ends
  exact ⟨m, t, hm, he, hruns.of_endsIn (P := fun u => CodecKept (s.checked codeDecode) u ∧ ∃ cs, ChunksRead u cs)
    (fun u v hr ⟨hk, cs, hc⟩ hv => hk.decode_step hc hcap hr hv)
    ⟨.checked s codeDecode, [], s.checked_chunksRead codeDecode⟩ he⟩

/-- Settles O58: CHECK refuses an input longer than IBUF; any other command reads its chunks to the end, and whether
`decode` of the input is CorruptData is whether its parse leaves a truncated chunk. -/
theorem decodeCommandComputesDecode : Obligations.DecodeCommandComputesDecode := by
  unfold Obligations.DecodeCommandComputesDecode
  intro s hP hb hc
  by_cases hf : s.inLen.toNat ≤ s.platform.inCap
  · obtain ⟨m, t, hm, he, hend⟩ := State.checked_decodes hP hf
    refine ⟨m + 2, t, he.commanded hb hc rfl hf, by omega, hend.inputs.inLen, hend.inputs.convIn, hend.convOut,
      hend.inputs.ibuf, fun _ z hz => ?_, fun _ hcorrupt => ⟨hend.overflows, fun hfits => ?_⟩, fun hlong => by omega⟩
    · rw [decode_eq_decodedOf, decodedOf_eq_ok_iff] at hz
      obtain ⟨cs, hparse, rfl⟩ := hz
      rw [hparse] at hend
      exact ⟨fun hfits => hend.completes hfits rfl, hend.overflows⟩
    · rw [decode_eq_decodedOf, decodedOf_eq_corruptData_iff] at hcorrupt
      exact hend.truncated hfits fun hnil => hcorrupt ⟨_, Prod.ext rfl hnil⟩
  · have hrefused : checkStep (s.begun codeDecode) = (s.begun codeDecode).raiseErr .lenRange :=
      checkStep_lenRange rfl (Nat.not_le.mp hf)
    exact ⟨2, _, (State.begun_refused hrefused).endsAt (step_commanded hb hc) (s.begun_busy codeDecode), by omega, rfl,
      rfl, rfl, fun _ => rfl, fun h => absurd h hf, fun h => absurd h hf, fun _ => ⟨rfl, rfl, fun _ => rfl⟩⟩

end Sys2Proof.Machine
end

section
/-! The conversions between bytes and integers (spec/43 R200 to R202), and as operations on words: `toUnsigned8` of a word
is its low byte, `toSigned8` of a byte its two's-complement value (spec/43 R204, R205). -/

namespace Sys2Proof

/-- `toUnsigned8` depends only on the value modulo 256. -/
theorem toUnsigned8_add_mul (v m : Int) : toUnsigned8 (v + 256 * m) = toUnsigned8 v := by
  rw [toUnsigned8, Int.add_mul_emod_self_left, toUnsigned8]

/-- Settles O6: the two conversions invert each other, and the control bytes of LIT and REP are their values at the run
lengths. -/
theorem conversionsAreExact : Obligations.ConversionsAreExact := by
  unfold Obligations.ConversionsAreExact
  refine ⟨fun _ => toSigned8_toUnsigned8, toUnsigned8_toSigned8, toUnsigned8_add_mul,
    fun L hl hu => ⟨?_, ?_⟩, fun k hl hu => ⟨?_, ?_⟩⟩
  · rw [toUnsigned8_repLength (by omega), BitVec.toNat_ofNat]
    omega
  · rw [← toUnsigned8_repLength (by omega), toSigned8_toUnsigned8 (by omega) (by omega)]
  · rw [toUnsigned8_litLength hl, BitVec.toNat_ofNat]
    omega
  · rw [← toUnsigned8_litLength hl, toSigned8_toUnsigned8 (by omega) (by omega)]

theorem toSigned8_eq_toInt (b : Byte) : toSigned8 b = b.toInt := by
  rw [toSigned8, BitVec.toInt_eq_toNat_cond]
  split <;> split <;> omega

namespace Machine

theorem lowByte_eq_ofNat (w : Word) : lowByte w = BitVec.ofNat 8 (w.toNat % 256) :=
  BitVec.eq_of_toNat_eq (by simp [lowByte])

theorem lowByte_zeroExtend_toNat (w : Word) : ((lowByte w).setWidth 32).toNat = w.toNat % 256 := by
  rw [BitVec.toNat_setWidth_of_le (by decide), lowByte, BitVec.toNat_setWidth]

theorem toUnsigned8_toInt (w : Word) : toUnsigned8 w.toInt = lowByte w := by
  rw [toUnsigned8_eq_iff, lowByte, BitVec.toNat_setWidth, BitVec.toInt_eq_toNat_cond]
  split <;> omega

theorem lowByte_signExtend_toInt (w : Word) : ((lowByte w).signExtend 32).toInt = toSigned8 (lowByte w) := by
  rw [BitVec.toInt_signExtend_of_le (by decide), toSigned8_eq_toInt]

/-- The sign extension of the low byte repeats bit 7. -/
theorem lowByte_signExtend_getLsbD (w : Word) {j : Nat} (hj : j < 32) :
    ((lowByte w).signExtend 32).getLsbD j = w.getLsbD (min j 7) := by
  rw [BitVec.getLsbD_signExtend, BitVec.msb_eq_getLsbD_last, lowByte, BitVec.getLsbD_setWidth, BitVec.getLsbD_setWidth]
  by_cases h : j < 8
  · have hmin : min j 7 = j := by omega
    simp [hj, h, hmin]
  · have hmin : min j 7 = 7 := by omega
    simp [hj, h, hmin]

end Machine

end Sys2Proof
end

section
/-! The converter commands TO_U8 and TO_S8: their RUN step (spec/43 R204, R205), and the commands that are not the
codec's from their acceptance to their end (spec/30 R93, spec/40 R122). -/

namespace Sys2Proof.Machine

/-- `complete()` after a converter command's write of CONV_OUT: OUT_LEN stays (spec/40 R120). -/
theorem State.complete_converter {s : State} (h : s.op = codeToU8 ∨ s.op = codeToS8) (v : Word) :
    ({ s with convOut := v } : State).complete = { s with convOut := v, status := 0x00000002#32 } := by
  have hcodec : ¬ isCodecCommand s.op = true := fun hc => not_converter_of_codec hc h
  rw [State.complete, if_neg hcodec]
  rfl

theorem exec_toU8 {s : State} (h : s.op = codeToU8) :
    exec .toU8 s = .next { s with convOut := (lowByte s.convIn).setWidth 32, status := 0x00000002#32 } :=
  congrArg Host.Outcome.next (State.complete_converter (.inl h) _)

theorem exec_toS8 {s : State} (h : s.op = codeToS8) :
    exec .toS8 s = .next { s with convOut := (lowByte s.convIn).signExtend 32, status := 0x00000002#32 } :=
  congrArg Host.Outcome.next (State.complete_converter (.inr h) _)

/-- Settles O45: the zero extension of the low byte, which is `toUnsigned8` of the signed word. -/
theorem toU8ZeroExtendsTheLowByte : Obligations.ToU8ZeroExtendsTheLowByte := by
  unfold Obligations.ToU8ZeroExtendsTheLowByte
  intro s ⟨_, _, hop⟩
  refine ⟨_, exec_toU8 hop, rfl, lowByte_zeroExtend_toNat s.convIn, ?_⟩
  rw [toUnsigned8_toInt, BitVec.toNat_setWidth_of_le (by decide)]

/-- Settles O46: the sign extension of the low byte, which is `toSigned8` of that byte. -/
theorem toS8SignExtendsTheLowByte : Obligations.ToS8SignExtendsTheLowByte := by
  unfold Obligations.ToS8SignExtendsTheLowByte
  intro s ⟨_, _, hop⟩
  refine ⟨_, exec_toS8 hop, rfl, ?_, fun _ => lowByte_signExtend_getLsbD s.convIn⟩
  rw [← lowByte_eq_ofNat]
  exact lowByte_signExtend_toInt s.convIn

/-- Settles O59: a converter command passes CHECK and ends in its RUN step; any word that is no command ends in CHECK. -/
theorem otherCommandsEndInThreeSteps : Obligations.OtherCommandsEndInThreeSteps := by
  unfold Obligations.OtherCommandsEndInThreeSteps
  intro s w he hd hb hc
  have haccept := step_commanded hb hc
  by_cases hw : w = codeToU8 ∨ w = codeToS8
  · have hends := s.begun_converts hw
    rw [State.complete_converter (s := s.checked w) hw] at hends
    exact ⟨3, _, hends.endsAt haccept (s.begun_busy w), le_rfl, fun h => ⟨rfl, rfl, if_pos h⟩,
      fun h => ⟨rfl, rfl, if_neg (h.trans_ne (by decide))⟩, fun h8 hs => absurd hw (not_or.mpr ⟨h8, hs⟩), rfl, rfl,
      fun _ => rfl, fun _ => rfl⟩
  · obtain ⟨h8, hs⟩ := not_or.mp hw
    have hcodec : isCodecCommand w = false := by simp [isCodecCommand, he, hd]
    have hrefused : checkStep (s.begun w) = (s.begun w).raiseErr .illegalCmd :=
      checkStep_illegal (decodeCommand_illegal hcodec h8 hs)
    exact ⟨2, _, (State.begun_refused hrefused).endsAt haccept (s.begun_busy w), by decide, fun h => absurd h h8,
      fun h => absurd h hs, fun _ _ => ⟨rfl, rfl, rfl⟩, rfl, rfl, fun _ => rfl, fun _ => rfl⟩

end Sys2Proof.Machine
end

section
/-! What an error leaves (spec/60 R226), and the chunks that end in OUT_OVERFLOW (spec/60 R225, spec/42 R182). -/

namespace Sys2Proof.Machine

/-! ### OUT_OVERFLOW in LIT and REP -/

/-- From a count inside OBUF, bytes that reach past its end do not fit. -/
theorem State.not_fits {s : State} {bs : List Byte} (ho : s.o ≤ s.platform.outCap)
    (hover : s.platform.outCap < s.o + bs.length) : ¬ s.fits bs := by
  rintro (rfl | hfits)
  · exact Nat.not_lt.mpr ho hover
  · exact Nat.not_lt.mpr hfits hover

/-- The state of a complete chunk that overflows: the count is at the end of OBUF, the cursor stays. -/
theorem State.chunkRead_lost {s : State} {bs : List Byte} {k : Nat} (hk : bs.length = k)
    (ho : s.o ≤ s.platform.outCap) (hover : s.platform.outCap < s.o + k) (p : Nat) :
    s.chunkRead bs p = { s.lost 0x42#32 with o := s.platform.outCap } := by
  subst hk
  rw [State.chunkRead_overflows (State.not_fits ho hover), State.overflowed_eq ho]

/-- Settles O37: a complete chunk reads all its bytes, and its output does not fit. -/
theorem overflowingChunksRaiseOutOverflow : Obligations.OverflowingChunksRaiseOutOverflow := by
  unfold Obligations.OverflowingChunksRaiseOutOverflow
  refine fun s hf ho => ⟨fun c k _ hk hin hover => ?_, fun c k _ hk hin hover => ?_⟩
  · rw [exec, execLit_complete hk hf hin, State.chunkRead_lost (by simp) ho hover]
  · rw [exec, execRep_complete hk hf hin, State.chunkRead_lost List.length_replicate ho hover]

/-! ### The registers and OBUF after an error -/

@[simp] theorem statusERR_error (e : ErrCode) : statusERR (statusError e) = (errNumber e).setWidth 4 := by
  cases e <;> decide

@[simp] theorem statusDONE_error (e : ErrCode) : statusDONE (statusError e) = true := by cases e <;> decide

/-- ILLEGAL_CMD and LEN_RANGE write the two registers only. -/
theorem State.raiseErr_eq_kept (s : State) (e : ErrCode) (h : errLosesObuf e = false) :
    s.raiseErr e = { s with outLen := 0, status := statusError e } := by
  rw [State.raiseErr, if_neg (Bool.eq_false_iff.mp h)]

@[simp] theorem State.lost_obufByte (s : State) (w : Word) (k : Nat) :
    (s.lost w).obufByte k = Config.freeByte s.draws k := rfl

/-- Settles O31: by whether the error keeps OBUF or loses it. -/
theorem errorCompletionSetsStatusAndOutLen : Obligations.ErrorCompletionSetsStatusAndOutLen := by
  unfold Obligations.ErrorCompletionSetsStatusAndOutLen
  intro s e
  have hstatus := s.raiseErr_status e
  refine ⟨s.raiseErr_outLen e, hstatus, hstatus ▸ statusERR_error e, hstatus ▸ statusDONE_error e, s.raiseErr_busy e,
    fun he => ?_, fun he => ?_⟩
  · have hkeeps : errLosesObuf e = false := by rcases he with rfl | rfl <;> rfl
    rw [hstatus]
    exact s.raiseErr_eq_kept e hkeeps
  · have hloses : errLosesObuf e = true := by rcases he with rfl | rfl <;> rfl
    rw [hstatus, s.raiseErr_eq_lost e hloses]
    exact ⟨rfl, s.lost_obufByte _⟩

end Sys2Proof.Machine
end

section
/-! Reset, at power-on and asserted (spec/70 R250 to R252): the registers and the idle block, the buffers' free values,
and the invariant. -/

namespace Sys2Proof.Machine

/-! ### The idle block and the buffers nothing has written -/

/-- An idle block with nothing scheduled stays as it is (log 9). -/
theorem step_idle_unscheduled {s : State} (hs : s.schedule = []) (hb : s.busy = false) : step s = .next s := by
  rw [step_unscheduled hs, perform_idle hb]

theorem State.not_busy_of_status_zero {s : State} (h : s.status = 0) : s.busy = false := by
  simp [State.busy, h, statusBUSY]

theorem State.ibufByte_of_unwritten {s : State} (h : s.ibuf = []) (k : Nat) :
    s.ibufByte k = Config.freeByte s.ibufDraw k := by simp [State.ibufByte, h]

theorem State.obufByte_of_unwritten {s : State} (h : s.obuf = []) (k : Nat) :
    s.obufByte k = Config.freeByte s.obufDraw k := by simp [State.obufByte, h]

/-! ### The block after reset -/

theorem State.resetFor_busy (P : Platform) : (State.resetFor P).busy = false :=
  State.not_busy_of_status_zero rfl

theorem State.assertReset_busy (s : State) : s.assertReset.busy = false :=
  State.not_busy_of_status_zero s.assertReset_status

/-- Settles O18: every register is 0 by the reset state's own fields, so BUSY is 0, and an idle block stays idle. -/
theorem resetLeavesRegistersZeroAndBlockIdle : Obligations.ResetLeavesRegistersZeroAndBlockIdle := by
  unfold Obligations.ResetLeavesRegistersZeroAndBlockIdle
  refine ⟨fun P => ?_, fun s rest hs => ?_⟩
  · have hidle := State.resetFor_busy P
    exact ⟨_, rfl, rfl, rfl, rfl, rfl, rfl, rfl, hidle, _, step_idle_unscheduled rfl hidle, hidle⟩
  · have hidle := State.assertReset_busy { s with schedule := rest }
    exact ⟨_, step_reset hs, rfl, rfl, rfl, rfl, rfl, rfl, rfl, hidle,
      fun hrest => ⟨_, step_idle_unscheduled hrest hidle, hidle⟩⟩

/-- Settles O19: reset lists no byte of either buffer, and its two draws are the next two numbers. -/
theorem resetDrawsTheBuffersAnew : Obligations.ResetDrawsTheBuffersAnew := by
  unfold Obligations.ResetDrawsTheBuffersAnew
  refine ⟨fun P s hs => ?_, fun s rest hs => ⟨_, step_reset hs, ?_⟩⟩
  · subst hs
    exact ⟨State.ibufByte_of_unwritten rfl, State.obufByte_of_unwritten rfl, Nat.zero_ne_one, Nat.two_pos,
      Nat.one_lt_two⟩
  · refine ⟨State.ibufByte_of_unwritten rfl, State.obufByte_of_unwritten rfl, ?_⟩
    simp only [State.assertReset_ibufDraw, State.assertReset_obufDraw, State.assertReset_draws]
    omega

/-! ### The invariant -/

theorem Inv.resetFor {P : Platform} (h : P.wf) : Inv (State.resetFor P) where
  platform := h
  status := List.mem_cons_self
  outLen := Nat.zero_le _
  convOut := ⟨0, .inl rfl⟩
  ibuf := ⟨.nil, List.forall_mem_nil _⟩
  obuf := ⟨.nil, List.forall_mem_nil _⟩
  draws := ⟨Nat.two_pos, Nat.one_lt_two⟩
  running := fun hb => absurd hb (Bool.eq_false_iff.mp (State.resetFor_busy P))

theorem Platform.wf_reference : Platform.reference.wf := by decide

/-- Settles O51: the reference platform is a legal one. -/
theorem resetSatisfiesTheInvariant : Obligations.ResetSatisfiesTheInvariant := by
  unfold Obligations.ResetSatisfiesTheInvariant
  exact ⟨fun _ h => Inv.resetFor h, Inv.resetFor Platform.wf_reference⟩

end Sys2Proof.Machine
end

section
/-! The words of the opcode table: samples of every row (spec/95 W12), and the model's placement of a word where the
next step takes its instruction from (log 12). -/

namespace Sys2Proof

/-- Settles O3, by evaluating the decoder at each word. -/
theorem sampleWordsDecode : Obligations.SampleWordsDecode := by
  unfold Obligations.SampleWordsDecode
  decide

/-- A word of the opcode table is the control byte or the command word that encodes its instruction. -/
theorem decodeTableWord_cases {nbits w : Nat} {i : Instr} (h : decodeTableWord nbits w = some i) :
    (∃ b : Byte, nbits = 8 ∧ w = b.toNat ∧ decodeControl b = i) ∨
    (∃ c : Word, nbits = 32 ∧ w = c.toNat ∧ decodeCommand c = .ok i) := by
  obtain ⟨hwf, hw⟩ := decodeTableWord_eq_some h
  cases he : encode i with
  | control b =>
    rw [he] at hw
    cases hw
    exact .inl ⟨b, rfl, rfl, decodeControl_eq_iff.mpr ⟨hwf, he⟩⟩
  | command c =>
    rw [he] at hw
    cases hw
    exact .inr ⟨c, rfl, rfl, decodeCommand_eq_ok_iff.mpr he⟩

namespace Machine

/-- A command past CHECK with nothing scheduled: the next step is its RUN step, for DECODE through the stream. -/
theorem step_checked {s : State} {w : Word} {i : Instr} (h : decodeCommand w = .ok i) :
    step (s.checked w) = exec i (s.checked w) := by
  have hs := s.checked_busy w
  rw [step_unscheduled rfl]
  by_cases hi : i = .decode
  · subst hi
    exact perform_decode hs rfl (InstrWord.command.inj (decodeCommand_eq_ok_iff.mp h)).symm
  · exact perform_run hs rfl (State.nextInstr_command h hi)

/-! ### A command placed -/

/-- A placed command is one that has been accepted and has passed CHECK, with an IN_LEN of the placement's. -/
theorem placeCommand_eq_checked {w : Word} {i : Instr} (h : decodeCommand w = .ok i) (s : State) :
    ∃ len : Word, placeCommand w s = ({ s with inLen := len } : State).checked w := by
  refine ⟨if isCodecCommand w ∧ s.platform.inCap < s.inLen.toNat then 0 else s.inLen, ?_⟩
  simp only [placeCommand, h]
  rfl

theorem step_placeCommand {w : Word} {i : Instr} (h : decodeCommand w = .ok i) (s : State) :
    step (placeCommand w s) = exec i (placeCommand w s) := by
  obtain ⟨len, hplace⟩ := placeCommand_eq_checked h s
  rw [hplace]
  exact step_checked h

/-! ### A control byte placed -/

/-- The state in which IBUF holds a control byte and zeros after it, as many as the longest chunk has and IBUF takes. -/
def State.withStreamHead (s : State) (b : Byte) : State :=
  let len := min longestChunk s.platform.inCap
  { s with
    ibuf := s.ibuf.writeFrom 0 ((b :: List.replicate (longestChunk - 1) 0).take len)
    inLen := BitVec.ofNat 32 len }

/-- A placed control byte is at the head of the input of a DECODE that has passed CHECK. -/
theorem placeControl_eq_checked (b : Byte) (s : State) :
    placeControl b s = (s.withStreamHead b).checked codeDecode := rfl

theorem State.withStreamHead_inLen (s : State) (b : Byte) :
    (s.withStreamHead b).inLen.toNat = min longestChunk s.platform.inCap := by
  simp only [State.withStreamHead, BitVec.toNat_ofNat, longestChunk]
  omega

theorem State.withStreamHead_ibufByte_zero {s : State} (h : 1 ≤ s.platform.inCap) (b : Byte) :
    (s.withStreamHead b).ibufByte 0 = b := by
  obtain ⟨k, hk⟩ : ∃ k, min longestChunk s.platform.inCap = k + 1 :=
    Nat.exists_eq_add_one.mpr (lt_min (by decide) h)
  simp [State.ibufByte, State.withStreamHead, hk, Memory.read?_writeFrom]

theorem step_placeControl {s : State} (h : 1 ≤ s.platform.inCap) (b : Byte) :
    step (placeControl b s) = exec (decodeControl b) (placeControl b s) := by
  have hn : (placeControl b s).n.toNat = min longestChunk s.platform.inCap := s.withStreamHead_inLen b
  have hfits : (placeControl b s).inputFits := hn.trans_le (min_le_right _ _)
  have hleft : 0 < (placeControl b s).n.toNat := hn ▸ lt_min (by decide) h
  have hhead : (placeControl b s).ibufByte (placeControl b s).p = b := State.withStreamHead_ibufByte_zero h b
  calc step (placeControl b s)
      = exec .decode (placeControl b s) := by rw [placeControl_eq_checked]; exact step_checked rfl
    _ = exec (decodeControl b) (placeControl b s) := by rw [execDecode_stream hfits hleft, hhead]

/-- Settles O17: a command is placed past CHECK, and a control byte at the cursor of a DECODE past CHECK, which a legal
platform's IBUF has room for. -/
theorem placedInstructionRunsNext : Obligations.PlacedInstructionRunsNext := by
  unfold Obligations.PlacedInstructionRunsNext
  intro s nbits w i hP hd
  obtain ⟨hcap, -⟩ := hP
  rcases decodeTableWord_cases hd with ⟨b, rfl, rfl, rfl⟩ | ⟨c, rfl, rfl, hc⟩
  · have hplace : s.withFetchWord 8 b.toNat = placeControl b s := by
      simp [State.withFetchWord, placeInstruction]
    rw [hplace]
    exact step_placeControl hcap b
  · have hplace : s.withFetchWord 32 c.toNat = placeCommand c s := by
      simp [State.withFetchWord, placeInstruction]
    rw [hplace]
    exact step_placeCommand hc s

end Machine

end Sys2Proof
end
